-- ==== Sys2Proof/Word.lean ====
section
/-! DEFINITION. The block's data types: the 32-bit value of every number register, history register and ALU
value (00_scope.md R5 `XLEN`, R9), and the 8-bit character of the string ports (R6). -/

namespace Sys2Proof

/-- `Bits32` of 00_scope.md R9: a 32-bit vector, read as two's complement where a rule says `sint`. -/
abbrev Word := BitVec 32

/-- One character on a `cand_chr` port, 8 bits (00_scope.md R6, 92_eei_decisions.md D3). -/
abbrev Char8 := BitVec 8

end Sys2Proof
end

