-- ==== Sys2Proof/Config.lean ====
section
/-! DEFINITION. The parameters of 00_scope.md R5: what is fixed for every block, and the two rows that are parameters
(`LEN_W`, `INPUT_MODE`), which one block holds in `Params`. The spec leaves no value of an instruction open, so there is
no free value. -/

namespace Sys2Proof.Config

/-- `INPUT_MODE` (00_scope.md R5, R6): which instruction port the block has. -/
inductive InputMode where
  /-- `STRING`, the default: `cand_len` and `cand_chr[0..31]`. -/
  | string
  /-- `WORD`: `instr_word`. -/
  | word
  deriving DecidableEq, Repr

/-- `ILEN` (R5): the characters in an instruction. -/
def ilen : Nat := 32

/-- The least `LEN_W` a block may have (R5). -/
def lenWMin : Nat := 6

/-- The default `LEN_W` (R5). -/
def lenWDefault : Nat := 8

/-- The two parameters of one block (R5). `LEN_W` is the width of `cand_len`, at least 6; `INPUT_MODE` says which
instruction port the block has. -/
structure Params where
  inputMode : InputMode
  lenW : Nat
  lenW_min : lenWMin ≤ lenW
  deriving DecidableEq, Repr

/-- The defaults of R5: `INPUT_MODE = STRING`, `LEN_W = 8`. -/
def defaultParams : Params := ⟨.string, lenWDefault, by decide⟩

/-- `REG_RESET` (R5): the reset value of `x[1..21]`; the spec's decision D9 (log entry 11). -/
def regReset : Word := 0

/-- `HIST_RESET` (R5): the reset value of `h[0..9]`; the spec's decision D9 (log entry 11). -/
def histReset : Word := 0

end Sys2Proof.Config
end

