-- ==== Sys2Proof/Syntax.lean ====
section
/-! DEFINITION. The instructions: the six rows of spec/opcode_table.json (00_scope.md R2, 30_encoding.md R55, R56),
one constructor each. -/

namespace Sys2Proof

/-- An instruction, with the operand fields its word carries (30_encoding.md R42).

`s1` and `s2` are the 5-bit register fields; WellFormed.lean holds the check that they lie in `[1, 21]` (R49).
`ign` is the store field that ADD, SUB, MUL, DIV and RECALL accept at any value and ignore (R53). R55's own
variants do not carry it; it is kept here so that every accepted word has exactly one term, as R59's `, #N`
spelling has it (DESIGN CHOICE, safe, log entry 8). -/
inductive Instr where
  /-- `add rA, rB` (40_alu.md R65). -/
  | add (s1 s2 : BitVec 5) (ign : BitVec 10)
  /-- `sub rA, rB` (R66). -/
  | sub (s1 s2 : BitVec 5) (ign : BitVec 10)
  /-- `mul rA, rB` (R67). -/
  | mul (s1 s2 : BitVec 5) (ign : BitVec 10)
  /-- `div rA, rB` (R68). -/
  | div (s1 s2 : BitVec 5) (ign : BitVec 10)
  /-- `store IMM` (41_store_recall.md R71). -/
  | store (imm : BitVec 10)
  /-- `recall` (R72). -/
  | recallHistory (ign : BitVec 10)
  deriving DecidableEq, Repr

end Sys2Proof
end

