-- ==== Sys2Proof/WellFormed.lean ====
section
/-! DEFINITION. Which instruction terms are instructions of the block: both register operands of an ALU
instruction lie in `[1, 21]` (30_encoding.md R49, R55). Every immediate and every ignored field is legal (R53). -/

namespace Sys2Proof

/-- The register fields R49 accepts: 1 to 21 (`GP_FIRST`, `GP_LAST` of 00_scope.md R5). -/
def isGpField (r : BitVec 5) : Bool :=
  decide (1 ≤ r.toNat) && decide (r.toNat ≤ 21)

/-- The instruction is one the decoder can produce (R55). -/
def Instr.wf : Instr → Bool
  | .add s1 s2 _ => isGpField s1 && isGpField s2
  | .sub s1 s2 _ => isGpField s1 && isGpField s2
  | .mul s1 s2 _ => isGpField s1 && isGpField s2
  | .div s1 s2 _ => isGpField s1 && isGpField s2
  | .store _ => true
  | .recallHistory _ => true

end Sys2Proof
end

