-- ==== Sys2Proof/Decode.lean ====
section
/-! DEFINITION. The decoder and validator (30_encoding.md), total on every candidate and rejecting by name in the
order of R45 to R52; then the encoder, written from the format of R42 and the map of R56, and the opcode table. -/

namespace Sys2Proof

/-- The six decode-time error kinds (`DecErr` of 30_encoding.md R55; 60_exceptions.md R77). -/
inductive DecodeError where
  /-- R45: the length is not 32. -/
  | invalidLength
  /-- R46: one of the 32 characters is neither `'0'` nor `'1'`. -/
  | invalidCharacters
  /-- R48: opcode 0 and a function code other than 32, 34, 24, 26. -/
  | invalidFunctionCode
  /-- R50: opcode 1 or 33 and a function code other than 0. -/
  | invalidOpcodeFunctionCombo
  /-- R49, R51: a register field outside the range its opcode allows. -/
  | invalidRegisterIndex
  /-- R52: an opcode other than 0, 1 and 33. -/
  | invalidOpcode
  deriving DecidableEq, Repr

/-- What stands on the instruction port of a block (00_scope.md R6). A block has one of the two forms, by its
`INPUT_MODE`: `portCandidate` of Transaction.lean gives the one it has (log entry 3). -/
inductive Candidate where
  /-- Only when `INPUT_MODE = STRING`: the ports `cand_len`, `lenW` bits wide, and `cand_chr[0..31]`. -/
  | string (lenW : Nat) (len : BitVec lenW) (chr : Vector Char8 32)
  /-- Only when `INPUT_MODE = WORD`: the port `instr_word`. -/
  | word (w : Word)
  deriving DecidableEq, Repr

/-- The code of the character `'0'`, 0x30 (R46; PRESUMED by the spec: ASCII, D4; log entry 14). -/
def charZero : Char8 := 0x30

/-- The code of the character `'1'`, 0x31 (R46; PRESUMED by the spec: ASCII, D4; log entry 14). -/
def charOne : Char8 := 0x31

/-- R46: the character is `'0'` or `'1'`. -/
def isBitChar (c : Char8) : Bool := c == charZero || c == charOne

/-- R44: a character's bit, `(if c = '1' then 1 else 0)`. -/
def bitOfChar (c : Char8) : Nat := if c = charOne then 1 else 0

/-- The bit-field reader `field(c, start, len)` of R44: one shift and add per character, most significant first.
Past the end of `c` it reads `'0'`; R44 is called with `start + len <= 32` on 32 characters only. -/
def field (c : List Char8) (start : Nat) : Nat → Nat
  | 0 => 0
  | k + 1 => 2 * field c start k + bitOfChar (c.getD (start + k) charZero)

/-- The five fields of the format (R42). -/
structure Fields where
  /-- positions 0..5 -/
  opcode : BitVec 6
  /-- positions 6..10 -/
  s1 : BitVec 5
  /-- positions 11..15 -/
  s2 : BitVec 5
  /-- positions 16..25 -/
  store : BitVec 10
  /-- positions 26..31 -/
  fc : BitVec 6
  deriving DecidableEq, Repr

/-- Step 3, extraction (R47). It cannot fail. -/
def extractFields (c : List Char8) : Fields where
  opcode := BitVec.ofNat 6 (field c 0 6)
  s1 := BitVec.ofNat 5 (field c 6 5)
  s2 := BitVec.ofNat 5 (field c 11 5)
  store := BitVec.ofNat 10 (field c 16 10)
  fc := BitVec.ofNat 6 (field c 26 6)

/-- R48: the four function codes of opcode 0. -/
def isAluFunction (fc : BitVec 6) : Bool := fc == 32 || fc == 34 || fc == 24 || fc == 26

/-- The ALU instruction a legal function code selects (R55, R56). -/
def aluInstr (fc : BitVec 6) (s1 s2 : BitVec 5) (ign : BitVec 10) : Instr :=
  if fc = 32 then .add s1 s2 ign
  else if fc = 34 then .sub s1 s2 ign
  else if fc = 24 then .mul s1 s2 ign
  else .div s1 s2 ign

/-- Steps 4 to 6 (R48 to R52), in their order: the function code before the registers. -/
def decodeFields (f : Fields) : Except DecodeError Instr :=
  if f.opcode = 0 then
    if !isAluFunction f.fc then .error .invalidFunctionCode
    else if !(isGpField f.s1 && isGpField f.s2) then .error .invalidRegisterIndex
    else .ok (aluInstr f.fc f.s1 f.s2 f.store)
  else if f.opcode = 1 ∨ f.opcode = 33 then
    if f.fc ≠ 0 then .error .invalidOpcodeFunctionCombo
    else if f.s1 ≠ 0 ∨ f.s2 ≠ 0 then .error .invalidRegisterIndex
    else .ok (if f.opcode = 1 then .store f.store else .recallHistory f.store)
  else .error .invalidOpcode

/-- Steps 1 to 6 on a length and its characters (R45 to R52, R55). -/
def decodeChars (len : Nat) (c : List Char8) : Except DecodeError Instr :=
  if len ≠ Config.ilen then .error .invalidLength
  else if !c.all isBitChar then .error .invalidCharacters
  else decodeFields (extractFields c)

/-- The 32-character string that packs to `w` (R43): position `p` is word bit `31 - p`. -/
def charsOfWord (w : Word) : Vector Char8 32 :=
  Vector.ofFn fun p => if w.getLsbD (31 - p.val) then charOne else charZero

/-- R55 on what stands on the instruction port. A word is treated exactly as the string that packs to it (R43). -/
def decode : Candidate → Except DecodeError Instr
  | .string _ len chr => decodeChars len.toNat chr.toList
  | .word w => decodeChars Config.ilen (charsOfWord w).toList

/-- R55 on a line of text of any length, as the instruction source supplies it (R7), before any port. -/
def decodeLine (line : List Char8) : Except DecodeError Instr :=
  decodeChars line.length line

/-- The five fields of an instruction (R42, R56). -/
def Instr.fields : Instr → Fields
  | .add s1 s2 ign => ⟨0, s1, s2, ign, 32⟩
  | .sub s1 s2 ign => ⟨0, s1, s2, ign, 34⟩
  | .mul s1 s2 ign => ⟨0, s1, s2, ign, 24⟩
  | .div s1 s2 ign => ⟨0, s1, s2, ign, 26⟩
  | .store imm => ⟨1, 0, 0, imm, 0⟩
  | .recallHistory ign => ⟨33, 0, 0, ign, 0⟩

/-- The word of five fields: opcode in `w[31:26]` down to the function code in `w[5:0]` (R42, R43). -/
def Fields.word (f : Fields) : Word :=
  f.opcode.zeroExtend 32 <<< 26 ||| f.s1.zeroExtend 32 <<< 21 ||| f.s2.zeroExtend 32 <<< 16 |||
    f.store.zeroExtend 32 <<< 6 ||| f.fc.zeroExtend 32

/-- The encoder: the instruction's word (R42, R56). -/
def encode (i : Instr) : Word := i.fields.word

/-- The encoder's 32 characters, what a driver presents in STRING mode (R41, R43). -/
def encodeChars (i : Instr) : Vector Char8 32 := charsOfWord (encode i)

/-- One row of the opcode map as words (R56): the fixed bits, and whether the ALU's register range check of R49
applies besides ("the mask alone does not decide an ALU word"). -/
structure OpcodeRow where
  matchWord : Word
  maskWord : Word
  ranged : Bool
  deriving DecidableEq, Repr

/-- The row of R56 an instruction belongs to. -/
def Instr.row : Instr → OpcodeRow
  | .add _ _ _ => ⟨0x00000020, 0xFC00003F, true⟩
  | .sub _ _ _ => ⟨0x00000022, 0xFC00003F, true⟩
  | .mul _ _ _ => ⟨0x00000018, 0xFC00003F, true⟩
  | .div _ _ _ => ⟨0x0000001A, 0xFC00003F, true⟩
  | .store _ => ⟨0x04000000, 0xFFFF003F, false⟩
  | .recallHistory _ => ⟨0x84000000, 0xFFFF003F, false⟩

/-- The six rows of R56, in its order. -/
def opcodeTable : List OpcodeRow :=
  [⟨0x00000020, 0xFC00003F, true⟩, ⟨0x00000022, 0xFC00003F, true⟩, ⟨0x00000018, 0xFC00003F, true⟩,
    ⟨0x0000001A, 0xFC00003F, true⟩, ⟨0x04000000, 0xFFFF003F, false⟩, ⟨0x84000000, 0xFFFF003F, false⟩]

/-- The row accepts the word: its fixed bits match, and where it is ranged both register slices are 1..21 (R56, R49). -/
def OpcodeRow.accepts (r : OpcodeRow) (w : Word) : Bool :=
  (w &&& r.maskWord == r.matchWord) &&
    (!r.ranged || (isGpField (w.extractLsb' 21 5) && isGpField (w.extractLsb' 16 5)))

/-- The word of a table row's bits: bit 0 is the least significant, every bit at or above `nbits` is 0 (the
numbering of spec/opcode_table.json, which is R43's; log entry 16). -/
def tableWord (nbits w : Nat) : Word := BitVec.ofNat 32 (w % 2 ^ nbits)

/-- A word's 32 characters, or the word itself, as they stand on the instruction port that the block has (R6, R43). -/
def candidateOfWord (params : Config.Params) (w : Word) : Candidate :=
  match params.inputMode with
  | .string => .string params.lenW (BitVec.ofNat params.lenW Config.ilen) (charsOfWord w)
  | .word => .word w

/-- The table word on the instruction port of the block with the default parameters (R5; log entry 16). -/
def tableCandidate (nbits w : Nat) : Candidate := candidateOfWord Config.defaultParams (tableWord nbits w)

/-- The instruction the decoder reads from a table word. -/
def decodeTableWord (nbits w : Nat) : Option Instr :=
  match decode (tableCandidate nbits w) with
  | .ok i => some i
  | .error _ => none

end Sys2Proof
end

