-- ==== Sys2Proof/Machine/State.lean ====
section
/-! DEFINITION. The block's state as plain data (10_state.md), the reasons a step can stop, and the state after
reset (70_reset_and_hazards.md R90). -/

namespace Sys2Proof.Machine

/-- An index of the number register file, 0 to 21 (10_state.md R11, 20_memory.md R32). -/
abbrev RegIndex := Fin 22

/-- A history slot, 0 to 9 (10_state.md R16, 20_memory.md R32). -/
abbrev SlotIndex := Fin 10

/-- The index of a general-purpose number register, 1 to 21 (`GP_FIRST`..`GP_LAST`, 00_scope.md R5): the legal
values of `ni` (10_state.md R17) and of an ALU operand (30_encoding.md R49). R30 asks for the legal ranges as an
invariant of the state type: this type cannot hold 0 or 22..31 (DESIGN CHOICE, safe, log entry 5). -/
structure GpIndex where
  val : RegIndex
  isGp : 1 ≤ val.val
  deriving DecidableEq, Repr

/-- The eight error kinds (60_exceptions.md R77). -/
inductive ErrorKind where
  /-- R45, decode step 1. -/
  | invalidLength
  /-- R46, decode step 2. -/
  | invalidCharacters
  /-- R48, decode step 4. -/
  | invalidFunctionCode
  /-- R50, decode step 5. -/
  | invalidOpcodeFunctionCombo
  /-- R52, decode step 6. -/
  | invalidOpcode
  /-- R49, R51, decode steps 4 and 5. -/
  | invalidRegisterIndex
  /-- R68, R81: DIV with a zero divisor, at execution. -/
  | divisionByZero
  /-- R62, R82: the defensive dispatch arm. Its code exists; a model on the closed instruction type gives it no
  transition, and no definition of this model raises it (log entry 10). -/
  | unknownInstruction
  deriving DecidableEq, Repr

/-- `status.code` (10_state.md R23) by name; `StatusCode.bits` in Flags.lean gives its 4 bits. The reserved codes
0x4 to 0x7 are never written and have no name here (R23, log entry 7). -/
inductive StatusCode where
  /-- After reset only. -/
  | none
  /-- A successful ADD, SUB, MUL or DIV. -/
  | okArith
  /-- A STORE. -/
  | okStore
  /-- A RECALL. -/
  | okRecall
  /-- A rejected candidate, or a DIV by zero. -/
  | error (kind : ErrorKind)
  deriving DecidableEq, Repr

/-- The status register, which stands for the source's `display` (10_state.md R22). -/
structure Status where
  code : StatusCode
  value : Word
  index : BitVec 5
  deriving DecidableEq, Repr

/-- What the driver presents on the input ports at one rising edge of `clk` (00_scope.md R6). A block has `cand_len`
and `cand_chr` or `instr_word`, by its `INPUT_MODE`, and never reads the values given for ports it does not have
(DESIGN CHOICE, safe, log entry 3). Where `candValid` is false or `rst` is true the instruction port has no effect
(70_reset_and_hazards.md R95, R96). -/
structure Pins where
  rst : Bool
  candValid : Bool
  /-- The candidate's length in characters; `candLenPort` of Transaction.lean is what the `LEN_W` bits of `cand_len`
  hold of it (R7, log entry 4). -/
  candLen : Nat
  /-- `cand_chr[0..31]`, position 0 first. -/
  candChr : Vector Char8 32
  /-- `instr_word`. -/
  instrWord : Word
  deriving DecidableEq, Repr

/-- The whole state of the block (10_state.md R20, 70_reset_and_hazards.md R90 "There is no other state"), with the
block's parameters and the input edges still to come. Every read of a number register goes through `State.reg`
(Operands.lean), every write through `writeReg` (Ops.lean): there `x[0]` is hardwired. -/
structure State where
  /-- The number register file `x[0]`..`x[21]` (R11). -/
  x : Vector Word 22
  /-- The history buffer `h[0]`..`h[9]` (R16). -/
  h : Vector Word 10
  /-- `numbers_index`: the register the next STORE writes (R17). -/
  ni : GpIndex
  /-- `history_index`: the slot the next successful ALU instruction writes (R18). -/
  hi : SlotIndex
  /-- `temp_history_index`: the recall cursor; 0 is the sentinel (R19). -/
  ti : SlotIndex
  /-- The status register (R22). -/
  status : Status
  /-- MODEL's own field, not the block's state: the parameters of the block (00_scope.md R5), which no step changes
  (DESIGN CHOICE, safe, log entry 3). -/
  params : Config.Params
  /-- MODEL's own field, not the block's state: the input ports at the edges still to come, oldest first (R25, R29
  and R99 make them bookkeeping; DESIGN CHOICE, safe, log entry 1). -/
  inputs : List Pins
  deriving DecidableEq, Repr

/-- The reasons the machine stops. No step raises one. -/
inductive Fault where
  /-- Raised by `alu` when it is given an UNVALIDATED instruction whose register field is 22..31, which names
  nothing (20_memory.md R32). The decoder rejects such a word first (30_encoding.md R49), so no step reaches it.
  Safe: the model stops where the spec gives nothing (DESIGN CHOICE, log entry 9). -/
  | noSuchRegister
  deriving DecidableEq, Repr

/-- The reasons an instruction is refused. No meaning raises one. -/
inductive Refusal where
  /-- Answered by `exec` for an instruction without a meaning yet; this model has none. Safe. -/
  | notModelled (mnemonic : String)
  deriving DecidableEq, Repr

/-- The state right after reset (70_reset_and_hazards.md R90) of the block with the default parameters (00_scope.md R5),
with no edge lined up. -/
def State.reset : State where
  x := (Vector.replicate 22 Config.regReset).set 0 0
  h := Vector.replicate 10 Config.histReset
  ni := ⟨1, by decide⟩
  hi := 0
  ti := 0
  status := ⟨.none, 0, 0⟩
  params := Config.defaultParams
  inputs := []

end Sys2Proof.Machine
end

