-- ==== Sys2Proof/Machine/Operands.lean ====
section
/-! DEFINITION. Reading operands (30_encoding.md R54), register reads with `x[0]` hardwired (10_state.md R12), and
the value notation of 00_scope.md R9. -/

namespace Sys2Proof.Machine

/-- `sint(v)`: the two's-complement reading (00_scope.md R9). -/
def sint (v : Word) : Int := v.toInt

/-- `wrap32(n)`: the `Bits32` congruent to `n` modulo `2^32` (R9). -/
def wrap32 (n : Int) : Word := BitVec.ofInt 32 n

/-- `quot_tz(a, b)`: the quotient rounded toward zero (R9). It is used for `b != 0` only. -/
def quotTz (a b : Int) : Int := a.tdiv b

/-- `zext_32` of the 10-bit store field (R9, 30_encoding.md R54): never sign-extended. -/
def zext32 (imm : BitVec 10) : Word := imm.zeroExtend 32

/-- `x[i]`: reads number register `i`; `x[0]` reads 0 whatever its cell holds (10_state.md R12). -/
def State.reg (s : State) (i : RegIndex) : Word :=
  if i = 0 then 0 else s.x[i]

/-- `h[j]`: reads history register `j` (00_scope.md R10). -/
def State.hist (s : State) (j : SlotIndex) : Word := s.h[j]

/-- The register a 5-bit field names: 0 to 21; 22 to 31 name nothing (20_memory.md R32). -/
def regOfField (r : BitVec 5) : Option RegIndex :=
  if h : r.toNat < 22 then some ⟨r.toNat, h⟩ else none

/-- An ALU register operand is a direct index (30_encoding.md R54). -/
def readOperand (r : BitVec 5) (s : State) : Option Word :=
  (regOfField r).map s.reg

/-- The 5-bit field that names a general-purpose register (30_encoding.md R42). -/
def GpIndex.field (r : GpIndex) : BitVec 5 := BitVec.ofNat 5 r.val.val

/-- The general-purpose register of a number `k` with `k < 21`: `x[k + 1]`. -/
def GpIndex.ofPred (k : Fin 21) : GpIndex := ⟨⟨k.val + 1, by omega⟩, by simp⟩

end Sys2Proof.Machine
end

