-- ==== Sys2Proof/Machine/Flags.lean ====
section
/-! DEFINITION. The block has no flags (10_state.md R24): the one indicator of an outcome is the status register
(R22, R23). This file holds its numeric codes and the record each outcome writes. -/

namespace Sys2Proof.Machine

/-- The status code of an error kind (10_state.md R23, 60_exceptions.md R77). -/
def ErrorKind.bits : ErrorKind → BitVec 4
  | .invalidLength => 0x8
  | .invalidCharacters => 0x9
  | .invalidFunctionCode => 0xA
  | .invalidOpcodeFunctionCombo => 0xB
  | .invalidOpcode => 0xC
  | .invalidRegisterIndex => 0xD
  | .divisionByZero => 0xE
  | .unknownInstruction => 0xF

/-- The 4 bits of a status code (10_state.md R23). -/
def StatusCode.bits : StatusCode → BitVec 4
  | .none => 0x0
  | .okArith => 0x1
  | .okStore => 0x2
  | .okRecall => 0x3
  | .error k => k.bits

/-- The error kind a decode error reports (60_exceptions.md R77). -/
def kindOfDecodeError : DecodeError → ErrorKind
  | .invalidLength => .invalidLength
  | .invalidCharacters => .invalidCharacters
  | .invalidFunctionCode => .invalidFunctionCode
  | .invalidOpcodeFunctionCombo => .invalidOpcodeFunctionCombo
  | .invalidRegisterIndex => .invalidRegisterIndex
  | .invalidOpcode => .invalidOpcode

/-- A history slot as the 5-bit index field (10_state.md R22). -/
def slotField (j : SlotIndex) : BitVec 5 := BitVec.ofNat 5 j.val

/-- `(OK_ARITH, r, slot)`: the result and the history slot written (10_state.md R23). -/
def statusArith (r : Word) (slot : SlotIndex) : Status := ⟨.okArith, r, slotField slot⟩

/-- `(OK_STORE, v, register)`: the value stored and the register written (R23). -/
def statusStore (v : Word) (r : GpIndex) : Status := ⟨.okStore, v, r.field⟩

/-- `(OK_RECALL, v, slot)`: the value recalled and the slot read (R23). -/
def statusRecall (v : Word) (slot : SlotIndex) : Status := ⟨.okRecall, v, slotField slot⟩

/-- `(code(E), 0, 0)`: value and index are 0 on every error (R22, R23, 60_exceptions.md R77). -/
def statusError (k : ErrorKind) : Status := ⟨.error k, 0, 0⟩

end Sys2Proof.Machine
end

