-- ==== Sys2Proof/Machine/Ops.lean ====
section
/-! DEFINITION. The shared operations over registers, history, cursors and status; and raising an error, the
block's one exception entry (60_exceptions.md R80). There is no return from it (R84): the next candidate is
processed from the state it left. -/

namespace Sys2Proof.Machine

/-- `x[i] <- v`: a write to `x[0]` has no effect (10_state.md R12). -/
def writeReg (i : RegIndex) (v : Word) (s : State) : State :=
  if i = 0 then s else { s with x := s.x.set i v }

/-- `h[j] <- v` (00_scope.md R10). -/
def writeHist (j : SlotIndex) (v : Word) (s : State) : State :=
  { s with h := s.h.set j v }

/-- `status <- r` (00_scope.md R10). -/
def setStatus (r : Status) (s : State) : State := { s with status := r }

/-- `ni <- (if ni = 21 then 1 else ni + 1)` (10_state.md R17). -/
def GpIndex.next (n : GpIndex) : GpIndex :=
  if h : n.val.val = 21 then ⟨1, by decide⟩ else ⟨⟨n.val.val + 1, by omega⟩, by simp⟩

/-- `(hi + 1) mod 10` (10_state.md R18). -/
def nextSlot (j : SlotIndex) : SlotIndex := ⟨(j.val + 1) % 10, Nat.mod_lt _ (by decide)⟩

/-- `(hi + 9) mod 10`: the most recently written slot, `hi - 1` wrapping (41_store_recall.md R72, 90_conflicts.md C6). -/
def newestSlot (hi : SlotIndex) : SlotIndex := ⟨(hi.val + 9) % 10, Nat.mod_lt _ (by decide)⟩

/-- The cursor RECALL moves to: from the sentinel 0 to the newest slot, else one step back (R72). The sentinel's
double meaning is kept as it is (R75). -/
def recallCursor (hi ti : SlotIndex) : SlotIndex :=
  if ti.val = 0 then newestSlot hi else ⟨ti.val - 1, by omega⟩

/-- The history append of a successful ALU instruction (40_alu.md R64): write `h[hi]`, report the slot written,
advance `hi`. -/
def appendHistory (r : Word) (s : State) : State :=
  let t := setStatus (statusArith r s.hi) (writeHist s.hi r s)
  { t with hi := nextSlot s.hi }

/-- `raise E` (60_exceptions.md R80): the status becomes `(code(E), 0, 0)`, nothing else changes. -/
def raiseError (k : ErrorKind) (s : State) : State := setStatus (statusError k) s

end Sys2Proof.Machine
end

