-- ==== Sys2Proof/Machine/Alu.lean ====
section
/-! DEFINITION. ADD, SUB, MUL, DIV (40_alu.md): the arithmetic laws of R63, the shared step of R64, and one meaning
per instruction. -/

namespace Sys2Proof.Machine

/-- The four operations of the ALU (40_alu.md R63). -/
inductive AluOp where
  | add
  | sub
  | mul
  | div
  deriving DecidableEq, Repr

/-- `f_op` (R63, R65 to R68): computed exactly on the signed readings, then wrapped to 32 bits. DIV is used with a
divisor other than 0. -/
def aluResult : AluOp → Word → Word → Word
  | .add, va, vb => wrap32 (sint va + sint vb)
  | .sub, va, vb => wrap32 (sint va - sint vb)
  | .mul, va, vb => wrap32 (sint va * sint vb)
  | .div, va, vb => wrap32 (quotTz (sint va) (sint vb))

/-- The shared ALU step (R64): read both operands, raise `DivisionByZero` for a zero divisor (R81), else append the
result to history. A register field of 22..31, which only an unvalidated instruction holds, names no register
(20_memory.md R32). -/
def alu (op : AluOp) (a b : BitVec 5) (s : State) : Host.Outcome State Fault Refusal :=
  match readOperand a s, readOperand b s with
  | some va, some vb =>
    if op = .div ∧ vb = 0 then .next (raiseError .divisionByZero s)
    else .next (appendHistory (aluResult op va vb) s)
  | _, _ => .fault .noSuchRegister

/-- ADD (R65). The store field is not read (30_encoding.md R53). -/
def execAdd (s1 s2 : BitVec 5) (_ign : BitVec 10) (s : State) : Host.Outcome State Fault Refusal :=
  alu .add s1 s2 s

/-- SUB (R66): `x[s1] - x[s2]` (the spec's decision D23, log entry 11). -/
def execSub (s1 s2 : BitVec 5) (_ign : BitVec 10) (s : State) : Host.Outcome State Fault Refusal :=
  alu .sub s1 s2 s

/-- MUL (R67): the low 32 bits of the product. -/
def execMul (s1 s2 : BitVec 5) (_ign : BitVec 10) (s : State) : Host.Outcome State Fault Refusal :=
  alu .mul s1 s2 s

/-- DIV (R68): `x[s1]` by `x[s2]`, rounded toward zero. -/
def execDiv (s1 s2 : BitVec 5) (_ign : BitVec 10) (s : State) : Host.Outcome State Fault Refusal :=
  alu .div s1 s2 s

end Sys2Proof.Machine
end

