-- ==== Sys2Proof/Machine/StoreRecall.lean ====
section
/-! DEFINITION. STORE and RECALL (41_store_recall.md). Neither can raise an error at execution (R76). -/

namespace Sys2Proof.Machine

/-- `store(S, imm)` of R71: write `x[ni]`, report it, advance `ni`, and the source's re-assertion of `x[0]`, which
has no effect (10_state.md R12). -/
def storeNext (imm : BitVec 10) (s : State) : State :=
  let v := zext32 imm
  let t := setStatus (statusStore v s.ni) (writeReg s.ni.val v s)
  writeReg 0 0 { t with ni := s.ni.next }

/-- `recall(S)` of R72: move the cursor first, then read the slot it names (90_conflicts.md C9). -/
def recallNext (s : State) : State :=
  let t := recallCursor s.hi s.ti
  setStatus (statusRecall (s.hist t) t) { s with ti := t }

/-- STORE (R71). -/
def execStore (imm : BitVec 10) (s : State) : Host.Outcome State Fault Refusal :=
  .next (storeNext imm s)

/-- RECALL (R72). The store field is ignored (30_encoding.md R53). -/
def execRecall (_ign : BitVec 10) (s : State) : Host.Outcome State Fault Refusal :=
  .next (recallNext s)

end Sys2Proof.Machine
end

