-- ==== Sys2Proof/Machine/Dispatch.lean ====
section
/-! DEFINITION. Dispatch (30_encoding.md R62): one arm per instruction. The instruction type is closed, so the
defensive default arm of R62 has no place (60_exceptions.md R82, log entry 10). -/

namespace Sys2Proof.Machine

def exec (i : Instr) (s : State) : Host.Outcome State Fault Refusal :=
  match i with
  | .add s1 s2 ign => Sys2Proof.Machine.execAdd s1 s2 ign s
  | .sub s1 s2 ign => Sys2Proof.Machine.execSub s1 s2 ign s
  | .mul s1 s2 ign => Sys2Proof.Machine.execMul s1 s2 ign s
  | .div s1 s2 ign => Sys2Proof.Machine.execDiv s1 s2 ign s
  | .store imm => Sys2Proof.Machine.execStore imm s
  | .recallHistory ign => Sys2Proof.Machine.execRecall ign s

end Sys2Proof.Machine
end

