-- ==== Sys2Proof/Machine/Transaction.lean ====
section
/-! DEFINITION. The instruction port of the block (00_scope.md R5 to R7), one transaction (30_encoding.md R61), one rising
edge of the clock (70_reset_and_hazards.md R90 to R96), the output ports (R94), and how a driver presents a line of text,
a word or an instruction (R6, R7). -/

namespace Sys2Proof.Machine

/-- The port `cand_len`: `LEN_W` bits that hold the candidate's length, saturating at `2^LEN_W - 1`, never wrapping
(00_scope.md R6, R7; log entry 4). -/
def candLenPort (params : Config.Params) (p : Pins) : BitVec params.lenW :=
  BitVec.ofNat params.lenW (min p.candLen (2 ^ params.lenW - 1))

/-- What stands on the instruction port that the block has: `cand_len` and `cand_chr` only when `INPUT_MODE = STRING`,
`instr_word` only when `INPUT_MODE = WORD` (R6, 30_encoding.md R43). -/
def portCandidate (params : Config.Params) (p : Pins) : Candidate :=
  match params.inputMode with
  | .string => .string params.lenW (candLenPort params p) p.candChr
  | .word => .word p.instrWord

/-- `transaction(S, c)` (30_encoding.md R61): decode, then raise the error or execute. -/
def transaction (c : Candidate) (s : State) : Host.Outcome State Fault Refusal :=
  match decode c with
  | .error e => .next (raiseError (kindOfDecodeError e) s)
  | .ok i => exec i s

/-- Reset at an edge with `rst = 1` (70_reset_and_hazards.md R90, R96): every state element takes its reset value,
whatever it held, and a candidate on the port is discarded. The block's parameters and the edges still to come are not
its state. -/
def resetEdge (s : State) : State := { State.reset with params := s.params, inputs := s.inputs }

/-- One rising edge of `clk` (R90, R93, R95, R96): reset beats a candidate, the candidate on the block's port is one
transaction, and an idle edge changes nothing. -/
def clockEdge (p : Pins) (s : State) : Host.Outcome State Fault Refusal :=
  if p.rst then .next (resetEdge s)
  else if p.candValid then transaction (portCandidate s.params p) s
  else .next s

/-- The output port `status_code` (R94). -/
def State.statusCodePort (s : State) : BitVec 4 := s.status.code.bits

/-- The output port `status_value` (R94). -/
def State.statusValuePort (s : State) : Word := s.status.value

/-- The output port `status_index` (R94). -/
def State.statusIndexPort (s : State) : BitVec 5 := s.status.index

/-- The driver presents a word: on the string ports its 32 characters, on the word port the word itself (R43). So the
block reads the same instruction whichever port it has. -/
def presentWord (w : Word) : Pins := ⟨false, true, Config.ilen, charsOfWord w, w⟩

/-- The driver presents an instruction, by its encoding. -/
def presentInstr (i : Instr) : Pins := presentWord (encode i)

/-- The driver presents `line` to a block with the string ports (00_scope.md R7): its length, and its characters at the
positions it has; the other positions hold anything. -/
def presentsLine (line : List Char8) (p : Pins) : Bool :=
  p.candLen == line.length && (p.candChr.toList.zip line).all fun q => q.1 == q.2

end Sys2Proof.Machine
end

