-- ==== Sys2Proof/Machine/Step.lean ====
section
/-! DEFINITION. One step of the machine is one rising edge of `clk` on the next lined-up input ports
(70_reset_and_hazards.md R93). -/

namespace Sys2Proof.Machine

/-- One step. With no edge lined up the driver presents nothing, which changes nothing (R95, R99; log entry 2). -/
def step (s : State) : Host.Outcome State Fault Refusal :=
  match s.inputs with
  | [] => .next s
  | p :: rest => clockEdge p { s with inputs := rest }

/-- `s` with the table word presented at the very next edge, on whichever instruction port the block has; the edges
already lined up follow it (log entries 2, 16). -/
def State.withFetchWord (s : State) (nbits w : Nat) : State :=
  { s with inputs := presentWord (tableWord nbits w) :: s.inputs }

/-- `s` with these instructions lined up, one per edge: a finite list of candidates, which is a run (R99). -/
def State.withInstrs (is : List Instr) (s : State) : State :=
  { s with inputs := is.map presentInstr }

end Sys2Proof.Machine
end

