-- ==== Sys2Proof/Machine/Assembly.lean ====
section
/-! DEFINITION. The assembler notation of 30_encoding.md R59: one spelling per accepted word, and an assembler, on terms
and on text, that refuses what the block would reject. There are no pseudo-instructions (R60). -/

namespace Sys2Proof.Machine

/-- A register operand, `r1`..`r21`. -/
def spellReg (r : BitVec 5) : String := "r" ++ toString r.toNat

/-- The trailing `, #N` (or ` #N` for recall) of a non-zero ignored store field. -/
def spellIgnored (sep : String) (ign : BitVec 10) : String :=
  if ign = 0 then "" else sep ++ "#" ++ toString ign.toNat

/-- The spelling of an ALU instruction. -/
def spellAlu (name : String) (s1 s2 : BitVec 5) (ign : BitVec 10) : String :=
  name ++ " " ++ spellReg s1 ++ ", " ++ spellReg s2 ++ spellIgnored ", " ign

/-- The instruction in R59's notation; immediates in decimal (log entry 17). -/
def spell : Instr → String
  | .add s1 s2 ign => spellAlu "add" s1 s2 ign
  | .sub s1 s2 ign => spellAlu "sub" s1 s2 ign
  | .mul s1 s2 ign => spellAlu "mul" s1 s2 ign
  | .div s1 s2 ign => spellAlu "div" s1 s2 ign
  | .store imm => "store " ++ toString imm.toNat
  | .recallHistory ign => "recall" ++ spellIgnored " " ign

/-- The assembler refuses any operand outside its constraint (R59). -/
def assemble (i : Instr) : Option Word := if i.wf then some (encode i) else none

/-- The value of a digit. -/
def digitValue (c : Char) : Option Nat :=
  if '0' ≤ c ∧ c ≤ '9' then some (c.toNat - 48)
  else if 'a' ≤ c ∧ c ≤ 'f' then some (c.toNat - 87)
  else if 'A' ≤ c ∧ c ≤ 'F' then some (c.toNat - 55)
  else none

/-- The number that digits of a base spell, after the digits already read. -/
def readDigits (base : Nat) : List Char → Nat → Option Nat
  | [], acc => some acc
  | c :: cs, acc =>
    match digitValue c with
    | some d => if d < base then readDigits base cs (acc * base + d) else none
    | none => none

/-- At least one digit of the base, and nothing else. -/
def readBase (base : Nat) (cs : List Char) : Option Nat :=
  if cs.isEmpty then none else readDigits base cs 0

/-- A decimal number, or one prefixed `0x` or `0b` (R59). -/
def readNumber : List Char → Option Nat
  | '0' :: 'x' :: cs => readBase 16 cs
  | '0' :: 'b' :: cs => readBase 2 cs
  | cs => readBase 10 cs

/-- A register operand `r1`..`r21`; any other is refused (R59). -/
def readReg : List Char → Option (BitVec 5)
  | 'r' :: cs => (readBase 10 cs).bind fun n => if 1 ≤ n ∧ n ≤ 21 then some (BitVec.ofNat 5 n) else none
  | _ => none

/-- An immediate in 0..1023; any other is refused (R59). -/
def readImm (cs : List Char) : Option (BitVec 10) :=
  (readNumber cs).bind fun n => if n ≤ 1023 then some (BitVec.ofNat 10 n) else none

/-- `#N`, a non-zero ignored store field (R59). -/
def readIgnored : List Char → Option (BitVec 10)
  | '#' :: cs => (readImm cs).bind fun n => if n = 0 then none else some n
  | _ => none

/-- A word without the blanks around it. -/
def trimBlanks (cs : List Char) : List Char :=
  ((cs.dropWhile (· == ' ')).reverse.dropWhile (· == ' ')).reverse

/-- The operands of an ALU instruction: `rA, rB` or `rA, rB, #N` (R59). -/
def readAlu (mk : BitVec 5 → BitVec 5 → BitVec 10 → Instr) : List (List Char) → Option Instr
  | [a, b] => (readReg a).bind fun s1 => (readReg b).bind fun s2 => some (mk s1 s2 0)
  | [a, b, n] => (readReg a).bind fun s1 => (readReg b).bind fun s2 => (readIgnored n).bind fun ign => some (mk s1 s2 ign)
  | _ => none

/-- One line of assembly text (R59). -/
def readInstr (text : List Char) : Option Instr :=
  let cs := trimBlanks text
  let name := cs.takeWhile (· != ' ')
  let rest := trimBlanks (cs.dropWhile (· != ' '))
  let ops := if rest.isEmpty then [] else (rest.splitOn ',').map trimBlanks
  if name = "add".toList then readAlu .add ops
  else if name = "sub".toList then readAlu .sub ops
  else if name = "mul".toList then readAlu .mul ops
  else if name = "div".toList then readAlu .div ops
  else if name = "store".toList then
    match ops with
    | [n] => (readImm n).map .store
    | _ => none
  else if name = "recall".toList then
    match ops with
    | [] => some (.recallHistory 0)
    | [n] => (readIgnored n).map .recallHistory
    | _ => none
  else none

/-- The word of a line of assembly text, where the assembler accepts it (R59). -/
def assembleText (text : String) : Option Word := (readInstr text.toList).bind assemble

end Sys2Proof.Machine
end

