-- ==== Sys2Proof/Safety.lean ====
section
/-! DEFINITION. What a legal state and a reachable state are, in the terms the statements use (10_state.md R21, R23,
R27, R28). The cursor ranges of R21 (2) are part of the state's type. -/

namespace Sys2Proof.Machine

/-- A value an ALU instruction can produce from operands in `[0, 1023]` (R28). -/
def inResultRange (v : Word) : Bool := decide (-1023 ≤ sint v) && decide (sint v ≤ 1046529)

/-- The status register holds a record R23 allows: payload 0 before any transaction and on an error, a history slot
with an ALU result or a recalled value in R28's range, a general-purpose register with a stored 10-bit value. -/
def Status.legal (r : Status) : Bool :=
  match r.code with
  | .none => r.value == 0 && r.index == 0
  | .okArith => decide (r.index.toNat ≤ 9) && inResultRange r.value
  | .okStore => decide (1 ≤ r.index.toNat) && decide (r.index.toNat ≤ 21) && decide (r.value.toNat ≤ 1023)
  | .okRecall => decide (r.index.toNat ≤ 9) && inResultRange r.value
  | .error k => r.value == 0 && r.index == 0 && k != .unknownInstruction

/-- The value ranges of R27 (every number register in `[0, 1023]`) and R28 (every history register in
`[-1023, 1046529]`), the hardwired `x[0]` (R21 (1)), and a legal status record (R23, R82). -/
structure State.Legal (s : State) : Prop where
  zeroReg : s.x[0] = 0
  regs : ∀ i : RegIndex, 0 ≤ sint (s.reg i) ∧ sint (s.reg i) ≤ 1023
  hist : ∀ j : SlotIndex, -1023 ≤ sint (s.hist j) ∧ sint (s.hist j) ≤ 1046529
  status : s.status.legal = true

/-- `n` steps of the machine (the host's `run`, at the model's own types). -/
def State.runFor (n : Nat) (s : State) : Host.Outcome State Fault Refusal := Sys2Proof.core.run n s

/-- The reset state of a block with these parameters, with the driver's edges lined up: how a run starts
(70_reset_and_hazards.md R92, R99). -/
def State.resetWith (params : Config.Params) (pins : List Pins) : State :=
  { State.reset with params := params, inputs := pins }

/-- Reachable from reset: some block, some driver's edges and some number of steps lead to `s` (10_state.md R21). -/
def State.Reachable (s : State) : Prop :=
  ∃ (params : Config.Params) (pins : List Pins) (n : Nat), (State.resetWith params pins).runFor n = .next s

/-- An edge with neither reset nor candidate (R95); the instruction port holds anything. -/
def Pins.idle (p : Pins) : Prop := p.rst = false ∧ p.candValid = false

/-- The instruction is a STORE. -/
def isStore : Instr → Bool
  | .store _ => true
  | .add _ _ _ | .sub _ _ _ | .mul _ _ _ | .div _ _ _ | .recallHistory _ => false

/-- The edge presents a STORE that the block accepts (41_store_recall.md R71). -/
def acceptsStore (params : Config.Params) (p : Pins) : Bool :=
  match decode (portCandidate params p) with
  | .ok i => !p.rst && p.candValid && isStore i
  | .error _ => false

/-- The number of STOREs the block accepts over these edges: the count R92 asks a program to keep. -/
def storeCount (params : Config.Params) (pins : List Pins) : Nat := pins.countP (acceptsStore params)

/-- The computational state agrees: everything the block holds but the status register (90_conflicts.md C7). -/
def State.SameComputational (s t : State) : Prop :=
  t.x = s.x ∧ t.h = s.h ∧ t.ni = s.ni ∧ t.hi = s.hi ∧ t.ti = s.ti

/-- Every element of the block holds the value of R90's table. -/
def State.HasResetValues (t : State) : Prop :=
  (∀ i : RegIndex, t.x[i] = 0 ∧ t.reg i = 0) ∧ (∀ j : SlotIndex, t.hist j = 0) ∧
  t.ni.val.val = 1 ∧ t.hi.val = 0 ∧ t.ti.val = 0 ∧
  t.status.code = .none ∧ t.status.value = 0 ∧ t.status.index = 0

/-- From `s` to `t` exactly the effect of `raise k` (60_exceptions.md R80): the status, nothing else. -/
def State.Raised (k : ErrorKind) (s t : State) : Prop :=
  s.SameComputational t ∧ t.inputs = s.inputs ∧ t.status.code = .error k ∧ t.status.value = 0 ∧ t.status.index = 0

/-- From `s` to `t` exactly a history append of `r` (40_alu.md R64): slot `hi` and the status hold the result, `hi`
has advanced, every other slot, every number register, `ni`, `ti` and the edges to come are as before. -/
def State.Appended (r : Word) (s t : State) : Prop :=
  t.hist s.hi = r ∧ (∀ j : SlotIndex, j ≠ s.hi → t.hist j = s.hist j) ∧
  t.status.code = .okArith ∧ t.status.value = r ∧ t.status.index.toNat = s.hi.val ∧
  t.hi.val = (s.hi.val + 1) % 10 ∧
  t.x = s.x ∧ t.ni = s.ni ∧ t.ti = s.ti ∧ t.inputs = s.inputs

/-- The ALU instruction of an operation with two general-purpose operands: every accepted ALU instruction has this
form (30_encoding.md R49, R55). -/
def AluOp.instr (op : AluOp) (a b : GpIndex) (ign : BitVec 10) : Instr :=
  match op with
  | .add => .add a.field b.field ign
  | .sub => .sub a.field b.field ign
  | .mul => .mul a.field b.field ign
  | .div => .div a.field b.field ign

/-- The instruction is one of the four ALU instructions (the ALU group of 00_scope.md section 7). -/
def isAlu : Instr → Bool
  | .add _ _ _ | .sub _ _ _ | .mul _ _ _ | .div _ _ _ => true
  | .store _ | .recallHistory _ => false

/-- The instructions are presented one per edge from `s` (70_reset_and_hazards.md R99). -/
def State.runInstrs (is : List Instr) (s : State) : Host.Outcome State Fault Refusal :=
  (s.withInstrs is).runFor is.length

end Sys2Proof.Machine
end

