-- ==== Sys2Proof/Certificates/Slice0/Obligations.lean ====
section
/-! DEFINITION. The statements for the provers. Each docstring names the rule of spec/ it formalises. Where a statement
takes `g : GpIndex` it ranges over every general-purpose register, and `g.field` is the field that names it: every
operand an accepted ALU instruction can have (30_encoding.md R49). -/

open Sys2Proof Sys2Proof.Machine

/-! ## Decoding and encoding -/

/-- Six words written out from the encodings of R56 and the vectors of 95_test_vectors.md decode to the instructions
they stand for, and the six kinds of rejection are each reported by name. -/
def Obligations.SpecVectorsDecodeAsWritten : Prop :=
  decode (.word 0x00220020) = .ok (.add 1 2 0) ∧
  decode (.word 0x0022FFE2) = .ok (.sub 1 2 1023) ∧
  decode (.word 0x00A50018) = .ok (.mul 5 5 0) ∧
  decode (.word 0x0041001A) = .ok (.div 2 1 0) ∧
  decode (.word 0x04000140) = .ok (.store 5) ∧
  decode (.word 0x840001C0) = .ok (.recallHistory 7) ∧
  decodeLine [] = .error .invalidLength ∧
  decodeLine (List.replicate 32 0x61) = .error .invalidCharacters ∧
  decode (.word 0x00000001) = .error .invalidFunctionCode ∧
  decode (.word 0x04600005) = .error .invalidOpcodeFunctionCombo ∧
  decode (.word 0x02C10020) = .error .invalidRegisterIndex ∧
  decode (.word 0x1C220020) = .error .invalidOpcode

/-- R44: the bit-field reader is the binary value of the characters, most significant first, and is never
sign-extended (it stays below `2^len`). -/
def Obligations.FieldReaderIsMsbFirstBinary : Prop :=
  ∀ (c : List Char8) (start len : Nat),
    field c start len
      = ∑ k ∈ Finset.range len, bitOfChar (c.getD (start + k) charZero) * 2 ^ (len - 1 - k) ∧
    field c start len < 2 ^ len

/-- R43: strings of `'0'` and `'1'` and words correspond by `w[31 - p] = c[p]`; under it a field's value is the word
slice of R42's table; and a word is treated exactly as its string, so the length and character checks pass. -/
def Obligations.WordFormIsTheStringForm : Prop :=
  (∀ (w : Word) (p : Fin 32), (charsOfWord w)[p] = if w.getLsbD (31 - p.val) then charOne else charZero) ∧
  (∀ chr : Vector Char8 32, (∀ p : Fin 32, chr[p] = charZero ∨ chr[p] = charOne) → ∃ w : Word, charsOfWord w = chr) ∧
  (∀ w : Word, extractFields (charsOfWord w).toList
    = ⟨w.extractLsb' 26 6, w.extractLsb' 21 5, w.extractLsb' 16 5, w.extractLsb' 6 10, w.extractLsb' 0 6⟩) ∧
  (∀ (lenW : Nat) (w : Word), Config.lenWMin ≤ lenW →
    decode (.word w) = decode (.string lenW (BitVec.ofNat lenW 32) (charsOfWord w))) ∧
  (∀ w : Word, decode (.word w) ≠ .error .invalidLength ∧ decode (.word w) ≠ .error .invalidCharacters)

/-- Decoding the encoding of a well-formed instruction gives it back, with every operand at every value, on the
instruction port of every block: either `INPUT_MODE`, every `LEN_W` (R5, R42, R43, R55; the source's round trip, E4). -/
def Obligations.DecodeOfEncodeIsIdentity : Prop :=
  ∀ (params : Config.Params) (i : Instr), i.wf = true →
    decode (candidateOfWord params (encode i)) = .ok i ∧ decode (portCandidate params (presentInstr i)) = .ok i

/-- Every accepted word is the encoding of the one instruction it decodes to (R55; one spelling per word, R59). That the
term keeps the ignored store field, so that no accepted bit is dropped, is the model's choice (log entry 8): R55's own
variants carry no such field. -/
def Obligations.AcceptedWordIsItsEncoding : Prop :=
  ∀ (w : Word) (i : Instr), decode (.word w) = .ok i → i.wf = true ∧ encode i = w

/-- R56: a word is accepted exactly when one row of the opcode map accepts it, that row is unique, and it is the row
of the instruction the word decodes to. -/
def Obligations.AcceptedWordsAreTheOpcodeMap : Prop :=
  (∀ w : Word, (∃ i, decode (.word w) = .ok i) ↔ ∃ r ∈ opcodeTable, r.accepts w = true) ∧
  (∀ (w : Word) (i : Instr), decode (.word w) = .ok i → i.row ∈ opcodeTable ∧ i.row.accepts w = true) ∧
  (∀ (w : Word) (r r' : OpcodeRow), r ∈ opcodeTable → r' ∈ opcodeTable →
    r.accepts w = true → r'.accepts w = true → r = r')

/-- R48 to R52, in their order, on the word slices of R42, for the word and for the string that packs to it, whichever
port the block has: which error kind each illegal string reports (R57), and that legal register pairs, `s1 = s2` among
them, are accepted. -/
def Obligations.IllegalWordsReportTheRuledKind : Prop :=
  ∀ (params : Config.Params) (w : Word),
    let c := candidateOfWord params w
    let opcode := (w.extractLsb' 26 6).toNat
    let s1 := (w.extractLsb' 21 5).toNat
    let s2 := (w.extractLsb' 16 5).toNat
    let fc := (w.extractLsb' 0 6).toNat
    (opcode = 0 → fc ≠ 32 → fc ≠ 34 → fc ≠ 24 → fc ≠ 26 → decode c = .error .invalidFunctionCode) ∧
    (opcode = 0 → fc = 32 ∨ fc = 34 ∨ fc = 24 ∨ fc = 26 → s1 = 0 ∨ 22 ≤ s1 ∨ s2 = 0 ∨ 22 ≤ s2 →
      decode c = .error .invalidRegisterIndex) ∧
    (opcode = 0 → fc = 32 ∨ fc = 34 ∨ fc = 24 ∨ fc = 26 → 1 ≤ s1 → s1 ≤ 21 → 1 ≤ s2 → s2 ≤ 21 →
      ∃ i, decode c = .ok i ∧ isAlu i = true) ∧
    (opcode = 1 ∨ opcode = 33 → fc ≠ 0 → decode c = .error .invalidOpcodeFunctionCombo) ∧
    (opcode = 1 ∨ opcode = 33 → fc = 0 → s1 ≠ 0 ∨ s2 ≠ 0 → decode c = .error .invalidRegisterIndex) ∧
    (opcode ≠ 0 → opcode ≠ 1 → opcode ≠ 33 → decode c = .error .invalidOpcode)

/-- R45, R46: the length check comes first, whatever the characters; then one bad character in any field, the ignored
store field included, rejects a candidate of 32. -/
def Obligations.LengthThenCharactersAreChecked : Prop :=
  ∀ (lenW : Nat) (len : BitVec lenW) (chr : Vector Char8 32),
    (len.toNat ≠ 32 → decode (.string lenW len chr) = .error .invalidLength) ∧
    (len.toNat = 32 → (∃ p : Fin 32, chr[p] ≠ 0x30 ∧ chr[p] ≠ 0x31) →
      decode (.string lenW len chr) = .error .invalidCharacters)

/-- R7: on every block with the string ports, whatever its `LEN_W`, `cand_len` holds the line's length saturated at
`2^LEN_W - 1`, and what stands on the ports decodes as the whole line does: neither the width, nor the characters past
position 31, nor the positions the line does not fill change the outcome. -/
def Obligations.PresentedLineDecodesAsTheLine : Prop :=
  ∀ (params : Config.Params) (line : List Char8) (p : Pins), params.inputMode = .string → presentsLine line p = true →
    (candLenPort params p).toNat = min line.length (2 ^ params.lenW - 1) ∧
    decode (portCandidate params p) = decodeLine line ∧
    (line.length ≠ 32 → decode (portCandidate params p) = .error .invalidLength)

/-- R53: the store field is never validated, and two candidates that differ only in it have the same effect from every
state unless they are STOREs. -/
def Obligations.StoreFieldIsNeverValidatedAndIgnored : Prop :=
  ∀ (params : Config.Params) (w w' : Word), w &&& 0xFFFF003F = w' &&& 0xFFFF003F →
    ((∃ i, decode (candidateOfWord params w) = .ok i) ↔ (∃ i, decode (candidateOfWord params w') = .ok i)) ∧
    (w.extractLsb' 26 6 ≠ 1 →
      ∀ s : State, transaction (candidateOfWord params w) s = transaction (candidateOfWord params w') s)

/-- R59: the assembler yields exactly the words the block accepts, and refuses every operand outside its constraint. -/
def Obligations.AssemblerRefusesWhatTheBlockRejects : Prop :=
  ∀ i : Instr, (i.wf = false → assemble i = none) ∧
    (i.wf = true → ∃ w, assemble i = some w ∧ decode (.word w) = .ok i)

/-! ## Reset, edges and transactions -/

/-- R90, R96: at an edge with `rst = 1` every state element takes its reset value, whatever it held and whatever
candidate is presented in the same cycle; the candidate is discarded, and the status ports show (0, 0, 0). The state
after reset holds the same values. -/
def Obligations.ResetEdgeSetsEveryElement : Prop :=
  State.reset.HasResetValues ∧
  ∀ (s : State) (p : Pins) (rest : List Pins), s.inputs = p :: rest → p.rst = true →
    ∃ t, step s = .next t ∧ t.inputs = rest ∧ t.HasResetValues ∧
      t.statusCodePort = 0 ∧ t.statusValuePort = 0 ∧ t.statusIndexPort = 0

/-- R95: any number of edges with neither reset nor candidate, whatever stands on the instruction port, changes nothing,
the status register and so the output ports (R94) included. -/
def Obligations.IdleEdgesChangeNothing : Prop :=
  ∀ (s : State) (idles rest : List Pins), s.inputs = idles ++ rest → (∀ q ∈ idles, q.idle) →
    s.runFor idles.length = .next { s with inputs := rest }

/-- R94: after the edge of a transaction the output ports show its outcome, and they keep showing it over any number of
idle edges. -/
def Obligations.PortsShowTheLastOutcome : Prop :=
  ∀ (s : State) (p : Pins) (idles rest : List Pins), s.inputs = p :: (idles ++ rest) → p.rst = false →
    p.candValid = true → (∀ q ∈ idles, q.idle) →
    ∃ t u, transaction (portCandidate s.params p) { s with inputs := idles ++ rest } = .next t ∧
      s.runFor (idles.length + 1) = .next u ∧ u.statusCodePort = t.status.code.bits ∧
      u.statusValuePort = t.status.value ∧ u.statusIndexPort = t.status.index

/-- R61, R93: at an edge that presents a candidate and does not reset, a step is one transaction on what stands on the
instruction port that the block has: the error's effect where the decoder rejects, else exec of the decoded instruction,
on the state without that edge. -/
def Obligations.StepRunsTheDecodedInstruction : Prop :=
  ∀ (s : State) (p : Pins) (rest : List Pins), s.inputs = p :: rest → p.rst = false → p.candValid = true →
    (∀ i, decode (portCandidate s.params p) = .ok i → step s = exec i { s with inputs := rest }) ∧
    (∀ e, decode (portCandidate s.params p) = .error e → ∃ t, step s = .next t ∧
      ({ s with inputs := rest } : State).Raised (kindOfDecodeError e) t)

/-- A table word stored by `withFetchWord` is what the very next step decodes and runs, whichever port the block has (the
model's own input line-up, log entries 2 and 16; R43, R93). -/
def Obligations.StoredFetchWordRunsNext : Prop :=
  ∀ (s : State) (n w : Nat), n ≤ 32 → w < 2 ^ n →
    step (s.withFetchWord n w) = transaction (.word (BitVec.ofNat 32 w)) s ∧
    (∀ i, decodeTableWord n w = some i → step (s.withFetchWord n w) = exec i s)

/-- R80, R81: every rejected candidate, and DIV by a zero divisor, sets the status to `(code, 0, 0)` and changes no
other state: no history write, no cursor moved. -/
def Obligations.ErrorsChangeOnlyTheStatus : Prop :=
  (∀ (s : State) (c : Candidate) (e : DecodeError), decode c = .error e →
    ∃ t, transaction c s = .next t ∧ s.Raised (kindOfDecodeError e) t) ∧
  (∀ (s : State) (a b : GpIndex) (ign : BitVec 10), s.reg b.val = 0 →
    ∃ t, exec (.div a.field b.field ign) s = .next t ∧ s.Raised .divisionByZero t)

/-- The status codes of R23 and R77 as they stand on the 4-bit port: the numbers, one code per name, no reserved code,
and "a code is an error exactly when its bit 3 is 1". -/
def Obligations.StatusCodesAreTheTable : Prop :=
  StatusCode.bits .none = 0x0 ∧ StatusCode.bits .okArith = 0x1 ∧ StatusCode.bits .okStore = 0x2 ∧
  StatusCode.bits .okRecall = 0x3 ∧
  (kindOfDecodeError .invalidLength).bits = 0x8 ∧ (kindOfDecodeError .invalidCharacters).bits = 0x9 ∧
  (kindOfDecodeError .invalidFunctionCode).bits = 0xA ∧
  (kindOfDecodeError .invalidOpcodeFunctionCombo).bits = 0xB ∧
  (kindOfDecodeError .invalidOpcode).bits = 0xC ∧ (kindOfDecodeError .invalidRegisterIndex).bits = 0xD ∧
  ErrorKind.bits .divisionByZero = 0xE ∧ ErrorKind.bits .unknownInstruction = 0xF ∧
  (∀ c c' : StatusCode, c.bits = c'.bits → c = c') ∧
  (∀ c : StatusCode, c.bits.toNat < 4 ∨ 8 ≤ c.bits.toNat) ∧
  (∀ c : StatusCode, c.bits.getLsbD 3 = true ↔ ∃ k, c = .error k)

/-- R78, R82: the only outcomes that report an error are a rejected candidate and a DIV whose divisor register is 0;
overflow, the ignored field, RECALL on an empty history and STORE never do, and `UnknownInstruction` never appears. -/
def Obligations.NoOtherConditionIsAnError : Prop :=
  ∀ (s t : State) (p : Pins) (rest : List Pins) (k : ErrorKind), s.inputs = p :: rest → p.rst = false →
    p.candValid = true → step s = .next t → t.status.code = .error k →
    k ≠ .unknownInstruction ∧
    ((∃ e, decode (portCandidate s.params p) = .error e ∧ k = kindOfDecodeError e) ∨
      (k = .divisionByZero ∧ ∃ (a b : GpIndex) (ign : BitVec 10),
        decode (portCandidate s.params p) = .ok (.div a.field b.field ign) ∧ s.reg b.val = 0))

/-- R89: no instruction and no error ends the block's operation: from every state, every run of any length goes on (R95
where nothing is presented). That one step takes exactly one edge from a line-up held in the state (R25, R93), and that
an empty line-up goes on as idle edges, is the model's choice (log entries 1 and 2). -/
def Obligations.EveryRunGoesOn : Prop :=
  ∀ (s : State) (n : Nat), ∃ t, s.runFor n = .next t ∧ t.inputs = s.inputs.drop n

/-- Every instruction the decoder can produce executes to a next state from every state, and changes none of the
candidates still to come (R55, R61, R40; the line-up of log entry 1). -/
def Obligations.WellFormedInstructionsComplete : Prop :=
  ∀ (i : Instr) (s : State), i.wf = true → ∃ t, exec i s = .next t ∧ t.inputs = s.inputs

/-- R36: repeating a rejected candidate writes the same status and changes nothing else. -/
def Obligations.RejectedCandidateIsIdempotent : Prop :=
  ∀ (s t : State) (c : Candidate) (e : DecodeError), decode c = .error e → transaction c s = .next t →
    transaction c t = .next t

/-- R35: a transaction on a candidate applies at most one complete mutation of the computational state: none, one
register write with `ni`'s advance, one history append with `hi`'s, or a move of `ti`. -/
def Obligations.TransactionIsOneCompleteMutation : Prop :=
  ∀ (s t : State) (c : Candidate), transaction c s = .next t →
    s.SameComputational t ∨
    (t.h = s.h ∧ t.hi = s.hi ∧ t.ti = s.ti ∧ t.ni.val.val = (if s.ni.val.val = 21 then 1 else s.ni.val.val + 1) ∧
      (∀ i : RegIndex, i ≠ s.ni.val → t.x[i] = s.x[i]) ∧ t.reg s.ni.val = t.status.value) ∨
    s.Appended t.status.value t ∨
    (t.x = s.x ∧ t.h = s.h ∧ t.ni = s.ni ∧ t.hi = s.hi ∧ t.status.value = s.hist t.ti)

/-- The model's choice for an unvalidated instruction (log entry 9): an operand field of 22 to 31 names no register
(R32), and the ALU stops by name. The decoder never produces such an instruction, on either port (R49). -/
def Obligations.UnnamedRegisterStopsByName : Prop :=
  ∀ (a b : BitVec 5) (ign : BitVec 10) (s : State), 22 ≤ a.toNat ∨ 22 ≤ b.toNat →
    exec (.add a b ign) s = .fault .noSuchRegister ∧ exec (.sub a b ign) s = .fault .noSuchRegister ∧
    exec (.mul a b ign) s = .fault .noSuchRegister ∧ exec (.div a b ign) s = .fault .noSuchRegister ∧
    ∀ c : Candidate, decode c ≠ .ok (.add a b ign) ∧ decode c ≠ .ok (.sub a b ign) ∧
      decode c ≠ .ok (.mul a b ign) ∧ decode c ≠ .ok (.div a b ign)

/-! ## The ALU instructions -/

/-- R63: the arithmetic laws. ADD, SUB and MUL are the low 32 bits of the exact result, MUL the same in the unsigned
reading; DIV's magnitude is the floor of the magnitudes' quotient, negative exactly when the signs differ and
`|a| >= |b|`; `-2^31 / -1` is `-2^31`; a zero divisor is `DivisionByZero`, and nothing else is an error. -/
def Obligations.ArithmeticLaws : Prop :=
  (∀ va vb : Word,
    (2 : Int) ^ 32 ∣ sint (aluResult .add va vb) - (sint va + sint vb) ∧
    (2 : Int) ^ 32 ∣ sint (aluResult .sub va vb) - (sint va - sint vb) ∧
    (2 : Int) ^ 32 ∣ sint (aluResult .mul va vb) - sint va * sint vb ∧
    (aluResult .mul va vb).toNat = va.toNat * vb.toNat % 2 ^ 32) ∧
  (∀ va vb : Word, vb ≠ 0 → ¬(va = 0x80000000 ∧ vb = 0xFFFFFFFF) →
    (sint (aluResult .div va vb)).natAbs = (sint va).natAbs / (sint vb).natAbs ∧
    (sint (aluResult .div va vb) < 0 ↔
      ((sint va < 0 ∧ 0 < sint vb) ∨ (0 < sint va ∧ sint vb < 0)) ∧ (sint vb).natAbs ≤ (sint va).natAbs)) ∧
  aluResult .div 0x80000000 0xFFFFFFFF = 0x80000000 ∧
  (∀ (op : AluOp) (a b : GpIndex) (ign : BitVec 10) (s : State), ∃ t, exec (op.instr a b ign) s = .next t ∧
    t.status.code = (if op = .div ∧ s.reg b.val = 0 then .error .divisionByZero else .okArith))

/-- R64: the shared ALU step, for all four operations and every general-purpose operand pair: `DivisionByZero` for a
zero divisor, else the result of R65 to R68 goes to `h[hi]` and the status, `hi` advances modulo 10, and
`x[0..21]`, `ni`, `ti` and every other slot are unchanged. -/
def Obligations.AluStepAppendsOrRaises : Prop :=
  ∀ (op : AluOp) (a b : GpIndex) (ign : BitVec 10) (s : State),
    ∃ t, exec (op.instr a b ign) s = .next t ∧
      (op = .div → s.reg b.val = 0 → s.Raised .divisionByZero t) ∧
      (¬(op = .div ∧ s.reg b.val = 0) → s.Appended (aluResult op (s.reg a.val) (s.reg b.val)) t)

/-- ADD completes with the 32-bit sum of its two registers appended (R65). -/
def Obligations.AddAppendsTheSum : Prop :=
  ∀ (a b : GpIndex) (ign : BitVec 10) (s : State),
    ∃ t, exec (.add a.field b.field ign) s = .next t ∧ s.Appended (s.reg a.val + s.reg b.val) t

/-- SUB completes with `x[s1] - x[s2]` appended (R66, the spec's operand order D23). -/
def Obligations.SubAppendsTheDifference : Prop :=
  ∀ (a b : GpIndex) (ign : BitVec 10) (s : State),
    ∃ t, exec (.sub a.field b.field ign) s = .next t ∧ s.Appended (s.reg a.val - s.reg b.val) t

/-- MUL completes with the low 32 bits of the product appended (R67). -/
def Obligations.MulAppendsTheLowProduct : Prop :=
  ∀ (a b : GpIndex) (ign : BitVec 10) (s : State),
    ∃ t, exec (.mul a.field b.field ign) s = .next t ∧ s.Appended (s.reg a.val * s.reg b.val) t

/-- DIV with a divisor register other than 0 completes with the signed quotient, rounded toward zero, appended (R68). -/
def Obligations.DivAppendsTheSignedQuotient : Prop :=
  ∀ (a b : GpIndex) (ign : BitVec 10) (s : State), s.reg b.val ≠ 0 →
    ∃ t, exec (.div a.field b.field ign) s = .next t ∧ s.Appended ((s.reg a.val).sdiv (s.reg b.val)) t

/-- R70: source and operand may coincide; both operands are then the same value, and no number register is written. -/
def Obligations.SameSourceTwice : Prop :=
  ∀ (a : GpIndex) (ign : BitVec 10) (s : State),
    (∃ t, exec (.add a.field a.field ign) s = .next t ∧ t.status.value = 2 * s.reg a.val ∧ t.x = s.x) ∧
    (∃ t, exec (.sub a.field a.field ign) s = .next t ∧ t.status.value = 0 ∧ t.x = s.x) ∧
    (∃ t, exec (.mul a.field a.field ign) s = .next t ∧ t.status.value = s.reg a.val * s.reg a.val ∧ t.x = s.x) ∧
    (s.reg a.val ≠ 0 → ∃ t, exec (.div a.field a.field ign) s = .next t ∧ t.status.value = 1 ∧ t.x = s.x)

/-- R69: no ALU instruction overflows in a state reachable from reset: the result's signed reading is the exact one,
in the range the rule gives for the operation. -/
def Obligations.NoOverflowFromReset : Prop :=
  ∀ (s : State) (a b : GpIndex), s.Reachable →
    let x := sint (s.reg a.val)
    let y := sint (s.reg b.val)
    let r := fun op => sint (aluResult op (s.reg a.val) (s.reg b.val))
    (r .add = x + y ∧ 0 ≤ r .add ∧ r .add ≤ 2046) ∧
    (r .sub = x - y ∧ -1023 ≤ r .sub ∧ r .sub ≤ 1023) ∧
    (r .mul = x * y ∧ 0 ≤ r .mul ∧ r .mul ≤ 1046529) ∧
    (y ≠ 0 → r .div = x.tdiv y ∧ 0 ≤ r .div ∧ r .div ≤ 1023)

/-! ## Number registers, STORE -/

/-- R12: `x[0]` reads 0 in every state, a write to it has no effect, and no instruction changes its cell. -/
def Obligations.ZeroRegisterIsHardwired : Prop :=
  ∀ s : State, s.reg 0 = 0 ∧ (∀ v, writeReg 0 v s = s) ∧
    (∀ (i : Instr) (t : State), exec i s = .next t → t.reg 0 = 0 ∧ t.x[0] = s.x[0])

/-- STORE completes: the register `ni` names holds the zero-extended immediate, the status reports it and the register,
`ni` advances with wrap from 21 to 1, and everything else is unchanged (R71). -/
def Obligations.StoreWritesTheNextRegister : Prop :=
  ∀ (imm : BitVec 10) (s : State), ∃ t, exec (.store imm) s = .next t ∧
    (t.reg s.ni.val).toNat = imm.toNat ∧ (∀ i : RegIndex, i ≠ s.ni.val → t.x[i] = s.x[i] ∧ t.reg i = s.reg i) ∧
    t.status.code = .okStore ∧ t.status.value.toNat = imm.toNat ∧ t.status.index.toNat = s.ni.val.val ∧
    t.ni.val.val = (if s.ni.val.val = 21 then 1 else s.ni.val.val + 1) ∧
    t.h = s.h ∧ t.hi = s.hi ∧ t.ti = s.ti ∧ t.inputs = s.inputs

/-- R13: only STORE writes the number register file, and it writes `x[ni]` alone, never `x[0]`. -/
def Obligations.OnlyStoreWritesNumberRegisters : Prop :=
  ∀ (i : Instr) (s t : State), exec i s = .next t →
    ((∀ imm, i ≠ .store imm) → t.x = s.x) ∧
    (∀ r : RegIndex, r ≠ s.ni.val → t.x[r] = s.x[r]) ∧ s.ni.val.val ≠ 0 ∧ s.ni.val.val ≤ 21

/-- R14: only the ALU reads the number register file, at its two operands. Changing the rest of the file (for STORE
and RECALL, all of it; `x[0]` always) changes neither the history, nor a cursor, nor the status an instruction leaves,
nor the register a STORE writes. -/
def Obligations.OnlyTheAluReadsNumberRegisters : Prop :=
  (∀ (s : State) (x' : Vector Word 22) (ign : BitVec 10), ∃ t,
    exec (.recallHistory ign) s = .next t ∧ exec (.recallHistory ign) { s with x := x' } = .next { t with x := x' }) ∧
  (∀ (s : State) (x' : Vector Word 22) (imm : BitVec 10), ∃ t t',
    exec (.store imm) s = .next t ∧ exec (.store imm) { s with x := x' } = .next t' ∧
    t' = { t with x := t'.x } ∧ t'.reg s.ni.val = t.reg s.ni.val) ∧
  (∀ (s : State) (x' : Vector Word 22) (op : AluOp) (a b : GpIndex) (ign : BitVec 10),
    x'[a.val] = s.x[a.val] → x'[b.val] = s.x[b.val] → ∃ t,
    exec (op.instr a b ign) s = .next t ∧ exec (op.instr a b ign) { s with x := x' } = .next { t with x := x' })

/-- R17: `ni` starts at 1, is always 1 to 21, names the register the next STORE writes whatever it holds, and changes at
no edge but a reset (to 1) or one that presents an accepted STORE with no reset (one up, from 21 to 1). The range holds
of every state by the cursor's type, which is the model's choice (log entry 5). -/
def Obligations.NumbersIndexMovesOnlyByStore : Prop :=
  State.reset.ni.val.val = 1 ∧
  (∀ s : State, 1 ≤ s.ni.val.val ∧ s.ni.val.val ≤ 21) ∧
  (∀ (imm : BitVec 10) (s : State), ∃ t, exec (.store imm) s = .next t ∧ (t.reg s.ni.val).toNat = imm.toNat ∧
    t.ni.val.val = if s.ni.val.val = 21 then 1 else s.ni.val.val + 1) ∧
  (∀ s t : State, step s = .next t →
    t.ni = s.ni ∨ (∃ p rest, s.inputs = p :: rest ∧ p.rst = true ∧ t.ni.val.val = 1) ∨
    (∃ p rest imm, s.inputs = p :: rest ∧ p.rst = false ∧ p.candValid = true ∧
      decode (portCandidate s.params p) = .ok (.store imm) ∧
      t.ni.val.val = if s.ni.val.val = 21 then 1 else s.ni.val.val + 1))

/-- STORE number `n` after reset writes `x[((n - 1) mod 21) + 1]` and leaves `ni` at the next register: the count
R92 asks a program to keep. It holds in every program on every block: after any edges without a reset (ALU instructions,
RECALLs, rejected candidates, idle edges and STOREs in any order), `n - 1` of them accepted STOREs. -/
def Obligations.StoreCountSelectsTheRegister : Prop :=
  ∀ (params : Config.Params) (before after : List Pins) (p : Pins) (imm : BitVec 10),
    (∀ q ∈ before, q.rst = false) → p.rst = false → p.candValid = true →
    decode (portCandidate params p) = .ok (.store imm) →
    let k := storeCount params before
    ∃ t, (State.resetWith params (before ++ p :: after)).runFor (before.length + 1) = .next t ∧
      t.status.code = .okStore ∧ t.status.value.toNat = imm.toNat ∧
      t.status.index.toNat = k % 21 + 1 ∧ t.ni.val.val = (k + 1) % 21 + 1 ∧
      (∀ r : RegIndex, r.val = k % 21 + 1 → (t.reg r).toNat = imm.toNat) ∧ t.inputs = after

/-- R97: no hazards. Two STOREs and the ADD of the two registers they wrote, at three consecutive edges from any state
with no edge between them, append the sum of the two immediates. -/
def Obligations.ConsecutiveEdgesNeedNoWait : Prop :=
  ∀ (s : State) (imm imm' ign : BitVec 10), ∃ t,
    s.runInstrs [.store imm, .store imm', .add s.ni.field s.ni.next.field ign] = .next t ∧
    t.status.code = .okArith ∧ t.status.value.toNat = imm.toNat + imm'.toNat ∧
    (t.hist s.hi).toNat = imm.toNat + imm'.toNat ∧ t.hi.val = (s.hi.val + 1) % 10

/-! ## History and RECALL -/

/-- R18: `hi` starts at 0, is always 0 to 9, names the slot the next successful ALU instruction writes, and changes at no
edge but a reset (to 0) or one that presents an accepted ALU instruction with no reset, which succeeds (one up modulo
10); a DIV that reports `DivisionByZero` leaves it. The range holds of every state by the cursor's type, which is the
model's choice (log entry 5). -/
def Obligations.HistoryIndexMovesOnlyByAluSuccess : Prop :=
  State.reset.hi.val = 0 ∧
  (∀ s : State, s.hi.val ≤ 9) ∧
  (∀ (op : AluOp) (a b : GpIndex) (ign : BitVec 10) (s : State), ∃ t, exec (op.instr a b ign) s = .next t ∧
    (¬(op = .div ∧ s.reg b.val = 0) → t.hist s.hi = t.status.value ∧ t.hi.val = (s.hi.val + 1) % 10) ∧
    (op = .div → s.reg b.val = 0 → t.hi = s.hi ∧ t.h = s.h)) ∧
  (∀ s t : State, step s = .next t →
    t.hi = s.hi ∨ (∃ p rest, s.inputs = p :: rest ∧ p.rst = true ∧ t.hi.val = 0) ∨
    (∃ p rest i, s.inputs = p :: rest ∧ p.rst = false ∧ p.candValid = true ∧
      decode (portCandidate s.params p) = .ok i ∧ isAlu i = true ∧ t.status.code = .okArith ∧
      t.hi.val = (s.hi.val + 1) % 10))

/-- R19: `ti` changes at no edge but a reset (to 0) or one that presents an accepted RECALL with no reset; arithmetic does
not move it. -/
def Obligations.RecallCursorMovesOnlyByRecall : Prop :=
  State.reset.ti.val = 0 ∧
  ∀ s t : State, step s = .next t →
    t.ti = s.ti ∨ (∃ p rest, s.inputs = p :: rest ∧ p.rst = true ∧ t.ti.val = 0) ∨
    (∃ p rest ign, s.inputs = p :: rest ∧ p.rst = false ∧ p.candValid = true ∧
      decode (portCandidate s.params p) = .ok (.recallHistory ign) ∧
      (t.ti.val = if s.ti.val = 0 then (s.hi.val + 9) % 10 else s.ti.val - 1))

/-- RECALL completes: the cursor jumps from the sentinel to the newest slot or moves one back, the status reports the
slot it arrived at and that slot's value, and everything else is unchanged (R72). -/
def Obligations.RecallReportsTheMovedCursor : Prop :=
  ∀ (ign : BitVec 10) (s : State), ∃ t, exec (.recallHistory ign) s = .next t ∧
    (t.ti.val = if s.ti.val = 0 then (s.hi.val + 9) % 10 else s.ti.val - 1) ∧
    t.status.code = .okRecall ∧ t.status.value = s.hist t.ti ∧ t.status.index.toNat = t.ti.val ∧
    t.x = s.x ∧ t.h = s.h ∧ t.ni = s.ni ∧ t.hi = s.hi ∧ t.inputs = s.inputs

/-- R73: the walk of successive RECALLs. From `ti = 0` with `hi = k`, the `n`-th further RECALL reads slot
`k - 1 - (n mod k)` (with 10 for `k = 0`), for every `n`; slot 9 is reached from slot 0 only through the sentinel jump
with `hi = 0`; and an ALU instruction in between does not move the cursor. -/
def Obligations.SuccessiveRecallsWalkTheRing : Prop :=
  (∀ (s : State) (igns : List (BitVec 10)) (ign : BitVec 10), s.ti.val = 0 →
    let k := if s.hi.val = 0 then 10 else s.hi.val
    ∃ t, s.runInstrs ((igns ++ [ign]).map .recallHistory) = .next t ∧
      t.status.code = .okRecall ∧ t.status.index.toNat = k - 1 - igns.length % k ∧
      t.ti.val = k - 1 - igns.length % k ∧ t.status.value = s.hist t.ti ∧
      t.x = s.x ∧ t.h = s.h ∧ t.ni = s.ni ∧ t.hi = s.hi) ∧
  (∀ (ign : BitVec 10) (s t : State), exec (.recallHistory ign) s = .next t → s.ti.val = 0 → t.ti.val = 9 →
    s.hi.val = 0) ∧
  (∀ (op : AluOp) (a b : GpIndex) (ign ign' : BitVec 10) (s t u : State), s.ti.val ≠ 0 →
    exec (op.instr a b ign) s = .next t → exec (.recallHistory ign') t = .next u → u.ti.val = s.ti.val - 1)

/-- R75: the sentinel ambiguity is kept. However `ti = 0` came about, "no recall yet" or a RECALL that arrived at slot 0,
the next RECALL jumps to the newest entry: it does not walk on to slot 9. -/
def Obligations.SentinelAlwaysRestartsTheWalk : Prop :=
  (∀ (ign : BitVec 10) (s : State), s.ti.val = 0 → ∃ t, exec (.recallHistory ign) s = .next t ∧
    t.status.code = .okRecall ∧ t.status.index.toNat = (s.hi.val + 9) % 10 ∧
    t.status.value = s.hist (newestSlot s.hi)) ∧
  (∀ (ign ign' : BitVec 10) (s : State), s.ti.val = 1 ∨ (s.ti.val = 0 ∧ s.hi.val = 1) → ∃ t u,
    exec (.recallHistory ign) s = .next t ∧ t.status.index = 0 ∧
    exec (.recallHistory ign') t = .next u ∧ u.status.index.toNat = (s.hi.val + 9) % 10 ∧
    u.status.value = s.hist (newestSlot s.hi))

/-- R74: after any run from reset in which no ALU instruction has succeeded (no state of it shows `OK_ARITH`), a RECALL is
legal, raises no error and returns a reset value 0; with the cursor at the sentinel it reads slot 9. -/
def Obligations.RecallOfAnEmptyHistoryReadsZero : Prop :=
  ∀ (params : Config.Params) (pins : List Pins) (n : Nat) (t : State) (ign : BitVec 10),
    (State.resetWith params pins).runFor n = .next t →
    (∀ (m : Nat) (u : State), m ≤ n → (State.resetWith params pins).runFor m = .next u → u.status.code ≠ .okArith) →
    ∃ u, exec (.recallHistory ign) t = .next u ∧ u.status.code = .okRecall ∧ u.status.value = 0 ∧
      t.hi.val = 0 ∧ (t.ti.val = 0 → u.status.index.toNat = 9)

/-- A result is what the next RECALL from the sentinel returns, wherever the ring stands (R64, R72): an ALU
instruction and a RECALL at two consecutive edges report the same value and the same slot. -/
def Obligations.RecallReturnsTheLatestResult : Prop :=
  ∀ (s : State) (op : AluOp) (a b : GpIndex) (ign ign' : BitVec 10), s.ti.val = 0 →
    ¬(op = .div ∧ s.reg b.val = 0) → ∃ t,
    s.runInstrs [op.instr a b ign, .recallHistory ign'] = .next t ∧ t.status.code = .okRecall ∧
    t.status.value = aluResult op (s.reg a.val) (s.reg b.val) ∧ t.status.index.toNat = s.hi.val ∧ t.ti = s.hi

/-- The ring of results (R18, R21 (3)): after any number of successful ADDs from any state, `hi` has advanced by that
number modulo 10, and the last one stands in the slot before it; the eleventh from slot 0 overwrites slot 0 (E7). -/
def Obligations.HistoryRingWrapsModuloTen : Prop :=
  ∀ (s : State) (ops : List (GpIndex × GpIndex)) (a b : GpIndex), ∃ t,
    s.runInstrs ((ops ++ [(a, b)]).map fun q => .add q.1.field q.2.field 0) = .next t ∧
    t.hi.val = (s.hi.val + ops.length + 1) % 10 ∧ t.status.index.toNat = (s.hi.val + ops.length) % 10 ∧
    t.hist (newestSlot t.hi) = s.reg a.val + s.reg b.val ∧
    (∀ j : SlotIndex, ops.length < (j.val + 10 - s.hi.val) % 10 → t.hist j = s.hist j) ∧
    t.x = s.x ∧ t.ni = s.ni ∧ t.ti = s.ti

/-! ## Invariants -/

/-- Every step keeps a legal state legal: `x[0]` is 0, number registers lie in `[0, 1023]`, history registers in
`[-1023, 1046529]`, and the status record is one R23 allows (R21, R23, R27, R28). -/
def Obligations.StepKeepsLegalStates : Prop :=
  ∀ s t : State, s.Legal → step s = .next t → t.Legal

/-- The reset state of every block is legal, whatever edges the driver lines up (R21, R27, R28, R90). -/
def Obligations.ResetStateIsLegal : Prop :=
  ∀ (params : Config.Params) (pins : List Pins), (State.resetWith params pins).Legal

/-- R27, R28: in every state reachable from reset, of every block and under every driver, every number register holds a
value in `[0, 1023]` and every history register one in `[-1023, 1046529]`. -/
def Obligations.ReachableValuesAreBounded : Prop :=
  ∀ s : State, s.Reachable →
    (∀ i : RegIndex, 0 ≤ sint (s.reg i) ∧ sint (s.reg i) ≤ 1023) ∧
    (∀ j : SlotIndex, -1023 ≤ sint (s.hist j) ∧ sint (s.hist j) ≤ 1046529)

/-! ## The block's parameters and ports -/

/-- R5: the parameters are fixed for a block, `LEN_W` is at least 6, the defaults are `STRING` and 8, and no instruction,
error, idle edge or reset edge changes them. That they stand beside the block's state is the model's choice (log
entry 3). -/
def Obligations.ParametersAreFixed : Prop :=
  State.reset.params.inputMode = .string ∧ State.reset.params.lenW = 8 ∧
  (∀ s : State, 6 ≤ s.params.lenW) ∧
  (∀ s t : State, step s = .next t → t.params = s.params) ∧
  (∀ (i : Instr) (s t : State), exec i s = .next t → t.params = s.params)

/-- R6: the block reads the instruction port it has and no other. With `INPUT_MODE = STRING` two edges that agree on
`rst`, `cand_valid`, the `LEN_W` bits of `cand_len` and `cand_chr` have the same effect, whatever `instr_word` would hold;
with `INPUT_MODE = WORD`, two that agree on `rst`, `cand_valid` and `instr_word`, whatever the string ports would hold. -/
def Obligations.OnlyTheBlocksOwnPortIsRead : Prop :=
  ∀ (s : State) (p q : Pins), p.rst = q.rst → p.candValid = q.candValid →
    (s.params.inputMode = .string → candLenPort s.params p = candLenPort s.params q → p.candChr = q.candChr →
      clockEdge p s = clockEdge q s) ∧
    (s.params.inputMode = .word → p.instrWord = q.instrWord → clockEdge p s = clockEdge q s)

/-- R43: with `INPUT_MODE = WORD` the length and character checks always pass. So no step of such a block newly reports
`InvalidLength` or `InvalidCharacters`, and none of its reachable states shows one. -/
def Obligations.WordBlockNeverReportsLengthOrCharacters : Prop :=
  (∀ s t : State, s.params.inputMode = .word → step s = .next t →
    t.status.code = .error .invalidLength ∨ t.status.code = .error .invalidCharacters → t.status = s.status) ∧
  (∀ s : State, s.params.inputMode = .word → s.Reachable →
    s.status.code ≠ .error .invalidLength ∧ s.status.code ≠ .error .invalidCharacters)

/-! ## Registers that no STORE has reached -/

/-- R92: a register that no STORE has reached since reset reads 0. After any edges without a reset, `k` of them accepted
STOREs, every register above `x[k]` does. -/
def Obligations.UnstoredRegistersReadZero : Prop :=
  ∀ (params : Config.Params) (pins after : List Pins), (∀ q ∈ pins, q.rst = false) →
    ∃ t, (State.resetWith params (pins ++ after)).runFor pins.length = .next t ∧
      ∀ r : RegIndex, storeCount params pins < r.val → t.reg r = 0
end

