-- ==== Sys2Proof/Laws/Decode.lean ====
section
/-! SUPPORT. Spec lemmas of the decoder: the reader's bound, and what `decodeFields` accepts. -/

namespace Sys2Proof

theorem bitOfChar_le_one (c : Char8) : bitOfChar c ≤ 1 := by unfold bitOfChar; split <;> simp

/-- R44: the reader's value lies in `[0, 2^len - 1]`. -/
theorem field_lt (c : List Char8) (start len : Nat) : field c start len < 2 ^ len := by
  induction len with
  | zero => simp [field]
  | succ k ih =>
    have := bitOfChar_le_one (c.getD (start + k) charZero)
    simp only [field, Nat.pow_succ]; omega

/-- Position `p` of the string that packs to `w` (R43). -/
theorem charsOfWord_get (w : Word) (p : Nat) (h : p < 32) :
    (charsOfWord w)[p] = if w.getLsbD (31 - p) then charOne else charZero := by
  simp [charsOfWord]

/-- The characters of a word are all `'0'` or `'1'` (R43). -/
theorem charsOfWord_all (w : Word) : (charsOfWord w).toList.all isBitChar = true := by
  simp only [List.all_eq_true]
  intro c hc
  rw [Vector.mem_toList_iff, Vector.mem_iff_getElem] at hc
  obtain ⟨p, hp, rfl⟩ := hc
  rw [charsOfWord_get w p hp]
  split <;> decide

/-- What `decodeFields` accepts is well formed, and the fields are the instruction's own. -/
theorem decodeFields_ok {f : Fields} {i : Instr} (h : decodeFields f = .ok i) : i.wf = true ∧ i.fields = f := by
  obtain ⟨op, s1, s2, st, fc⟩ := f
  simp only [decodeFields] at h
  split at h
  next h0 =>
    split at h
    · cases h
    next hf =>
      split at h
      · cases h
      next hg =>
        simp only [Bool.not_eq_true', Bool.not_eq_false] at hf hg
        simp only [isAluFunction, Bool.or_eq_true, beq_iff_eq] at hf
        cases h
        subst h0
        unfold aluInstr
        split
        next e => subst e; exact ⟨hg, rfl⟩
        next e1 =>
          split
          next e => subst e; exact ⟨hg, rfl⟩
          next e2 =>
            split
            next e => subst e; exact ⟨hg, rfl⟩
            next e3 =>
              have : fc = 26 := by tauto
              subst this; exact ⟨hg, rfl⟩
  next h0 =>
    split at h
    next h1 =>
      split at h
      · cases h
      next hf =>
        split at h
        · cases h
        next hs =>
          simp only [ne_eq, not_or, not_not] at hf hs
          cases h
          obtain ⟨rfl, rfl⟩ := hs
          subst hf
          rcases h1 with rfl | rfl <;> simp [Instr.wf, Instr.fields]
    · cases h

/-- The fields of a well-formed instruction decode to it (R55). -/
theorem decodeFields_fields (i : Instr) (h : i.wf = true) : decodeFields i.fields = .ok i := by
  cases i <;> simp_all [decodeFields, Instr.fields, Instr.wf, isAluFunction, aluInstr]

/-- What the validator accepts has 32 characters, all `'0'` or `'1'`, and its fields decode (R45, R46, R55). -/
theorem decodeChars_ok {len : Nat} {c : List Char8} {i : Instr} (h : decodeChars len c = .ok i) :
    len = 32 ∧ c.all isBitChar = true ∧ decodeFields (extractFields c) = .ok i := by
  unfold decodeChars at h
  split at h
  · cases h
  next hl =>
    split at h
    · cases h
    next hc => exact ⟨by simpa [Config.ilen] using hl, by simpa using hc, h⟩

/-- `cand_len` is wide enough to hold 32, as `LEN_W` is at least 6 (00_scope.md R5, R7). -/
theorem ilen_lt (params : Config.Params) : Config.ilen < 2 ^ params.lenW :=
  Nat.lt_of_lt_of_le (by decide : Config.ilen < 2 ^ Config.lenWMin)
    (Nat.pow_le_pow_right (by decide) params.lenW_min)

/-- Which instruction port the block has does not change what a word decodes to (R43). -/
theorem decode_candidateOfWord (params : Config.Params) (w : Word) :
    decode (candidateOfWord params w) = decode (.word w) := by
  unfold candidateOfWord
  split
  · simp only [decode, BitVec.toNat_ofNat, Nat.mod_eq_of_lt (ilen_lt params)]
  · rfl

/-- Every instruction the decoder produces is well formed (R55). -/
theorem decode_ok_wf {c : Candidate} {i : Instr} (h : decode c = .ok i) : i.wf = true := by
  cases c with
  | string lenW len chr => exact (decodeFields_ok (decodeChars_ok h).2.2).1
  | word w => exact (decodeFields_ok (decodeChars_ok h).2.2).1

end Sys2Proof
end

