-- ==== Sys2Proof/Laws/State.lean ====
section
/-! SUPPORT. One lemma per field per update of State, true by unfolding, so that no later proof unfolds a record
update. -/

namespace Sys2Proof.Machine

section setStatus
variable (r : Status) (s : State)
@[simp] theorem setStatus_x : (setStatus r s).x = s.x := rfl
@[simp] theorem setStatus_h : (setStatus r s).h = s.h := rfl
@[simp] theorem setStatus_ni : (setStatus r s).ni = s.ni := rfl
@[simp] theorem setStatus_hi : (setStatus r s).hi = s.hi := rfl
@[simp] theorem setStatus_ti : (setStatus r s).ti = s.ti := rfl
@[simp] theorem setStatus_status : (setStatus r s).status = r := rfl
@[simp] theorem setStatus_params : (setStatus r s).params = s.params := rfl
@[simp] theorem setStatus_inputs : (setStatus r s).inputs = s.inputs := rfl
end setStatus

section writeHist
variable (j : SlotIndex) (v : Word) (s : State)
@[simp] theorem writeHist_x : (writeHist j v s).x = s.x := rfl
@[simp] theorem writeHist_h : (writeHist j v s).h = s.h.set j v := rfl
@[simp] theorem writeHist_ni : (writeHist j v s).ni = s.ni := rfl
@[simp] theorem writeHist_hi : (writeHist j v s).hi = s.hi := rfl
@[simp] theorem writeHist_ti : (writeHist j v s).ti = s.ti := rfl
@[simp] theorem writeHist_status : (writeHist j v s).status = s.status := rfl
@[simp] theorem writeHist_params : (writeHist j v s).params = s.params := rfl
@[simp] theorem writeHist_inputs : (writeHist j v s).inputs = s.inputs := rfl
end writeHist

section writeReg
variable (i : RegIndex) (v : Word) (s : State)
@[simp] theorem writeReg_zero : writeReg 0 v s = s := rfl
theorem writeReg_x : (writeReg i v s).x = if i = 0 then s.x else s.x.set i v := by
  unfold writeReg; split <;> rfl
@[simp] theorem writeReg_h : (writeReg i v s).h = s.h := by unfold writeReg; split <;> rfl
@[simp] theorem writeReg_ni : (writeReg i v s).ni = s.ni := by unfold writeReg; split <;> rfl
@[simp] theorem writeReg_hi : (writeReg i v s).hi = s.hi := by unfold writeReg; split <;> rfl
@[simp] theorem writeReg_ti : (writeReg i v s).ti = s.ti := by unfold writeReg; split <;> rfl
@[simp] theorem writeReg_status : (writeReg i v s).status = s.status := by unfold writeReg; split <;> rfl
@[simp] theorem writeReg_params : (writeReg i v s).params = s.params := by unfold writeReg; split <;> rfl
@[simp] theorem writeReg_inputs : (writeReg i v s).inputs = s.inputs := by unfold writeReg; split <;> rfl
end writeReg

section raiseError
variable (k : ErrorKind) (s : State)
@[simp] theorem raiseError_x : (raiseError k s).x = s.x := rfl
@[simp] theorem raiseError_h : (raiseError k s).h = s.h := rfl
@[simp] theorem raiseError_ni : (raiseError k s).ni = s.ni := rfl
@[simp] theorem raiseError_hi : (raiseError k s).hi = s.hi := rfl
@[simp] theorem raiseError_ti : (raiseError k s).ti = s.ti := rfl
@[simp] theorem raiseError_status : (raiseError k s).status = ⟨.error k, 0, 0⟩ := rfl
@[simp] theorem raiseError_params : (raiseError k s).params = s.params := rfl
@[simp] theorem raiseError_inputs : (raiseError k s).inputs = s.inputs := rfl
end raiseError

section appendHistory
variable (r : Word) (s : State)
@[simp] theorem appendHistory_x : (appendHistory r s).x = s.x := rfl
@[simp] theorem appendHistory_h : (appendHistory r s).h = s.h.set s.hi r := rfl
@[simp] theorem appendHistory_ni : (appendHistory r s).ni = s.ni := rfl
@[simp] theorem appendHistory_hi : (appendHistory r s).hi = nextSlot s.hi := rfl
@[simp] theorem appendHistory_ti : (appendHistory r s).ti = s.ti := rfl
@[simp] theorem appendHistory_status : (appendHistory r s).status = ⟨.okArith, r, slotField s.hi⟩ := rfl
@[simp] theorem appendHistory_params : (appendHistory r s).params = s.params := rfl
@[simp] theorem appendHistory_inputs : (appendHistory r s).inputs = s.inputs := rfl
end appendHistory

section storeNext
variable (imm : BitVec 10) (s : State)
@[simp] theorem storeNext_x : (storeNext imm s).x = (writeReg s.ni.val (zext32 imm) s).x := rfl
@[simp] theorem storeNext_h : (storeNext imm s).h = s.h := by simp [storeNext]
@[simp] theorem storeNext_ni : (storeNext imm s).ni = s.ni.next := by simp [storeNext]
@[simp] theorem storeNext_hi : (storeNext imm s).hi = s.hi := by simp [storeNext]
@[simp] theorem storeNext_ti : (storeNext imm s).ti = s.ti := by simp [storeNext]
@[simp] theorem storeNext_status : (storeNext imm s).status = ⟨.okStore, zext32 imm, s.ni.field⟩ := rfl
@[simp] theorem storeNext_params : (storeNext imm s).params = s.params := by simp [storeNext]
@[simp] theorem storeNext_inputs : (storeNext imm s).inputs = s.inputs := by simp [storeNext]
end storeNext

section recallNext
variable (s : State)
@[simp] theorem recallNext_x : (recallNext s).x = s.x := rfl
@[simp] theorem recallNext_h : (recallNext s).h = s.h := rfl
@[simp] theorem recallNext_ni : (recallNext s).ni = s.ni := rfl
@[simp] theorem recallNext_hi : (recallNext s).hi = s.hi := rfl
@[simp] theorem recallNext_ti : (recallNext s).ti = recallCursor s.hi s.ti := rfl
@[simp] theorem recallNext_status : (recallNext s).status =
    ⟨.okRecall, s.hist (recallCursor s.hi s.ti), slotField (recallCursor s.hi s.ti)⟩ := rfl
@[simp] theorem recallNext_params : (recallNext s).params = s.params := rfl
@[simp] theorem recallNext_inputs : (recallNext s).inputs = s.inputs := rfl
end recallNext

section resetEdge
variable (s : State)
@[simp] theorem resetEdge_x : (resetEdge s).x = State.reset.x := rfl
@[simp] theorem resetEdge_h : (resetEdge s).h = State.reset.h := rfl
@[simp] theorem resetEdge_ni : (resetEdge s).ni = State.reset.ni := rfl
@[simp] theorem resetEdge_hi : (resetEdge s).hi = State.reset.hi := rfl
@[simp] theorem resetEdge_ti : (resetEdge s).ti = State.reset.ti := rfl
@[simp] theorem resetEdge_status : (resetEdge s).status = State.reset.status := rfl
@[simp] theorem resetEdge_params : (resetEdge s).params = s.params := rfl
@[simp] theorem resetEdge_inputs : (resetEdge s).inputs = s.inputs := rfl
end resetEdge

section lineUp
variable (is : List Instr) (s : State)
@[simp] theorem withInstrs_x : (s.withInstrs is).x = s.x := rfl
@[simp] theorem withInstrs_h : (s.withInstrs is).h = s.h := rfl
@[simp] theorem withInstrs_ni : (s.withInstrs is).ni = s.ni := rfl
@[simp] theorem withInstrs_hi : (s.withInstrs is).hi = s.hi := rfl
@[simp] theorem withInstrs_ti : (s.withInstrs is).ti = s.ti := rfl
@[simp] theorem withInstrs_status : (s.withInstrs is).status = s.status := rfl
@[simp] theorem withInstrs_params : (s.withInstrs is).params = s.params := rfl
@[simp] theorem withInstrs_inputs : (s.withInstrs is).inputs = is.map presentInstr := rfl
end lineUp

end Sys2Proof.Machine
end

