-- ==== Sys2Proof/Laws/Ops.lean ====
section
/-! SUPPORT. One spec lemma per shared operation: what a later proof cites instead of unfolding it. -/

namespace Sys2Proof.Machine

/-! Registers and history. -/

/-- `x[0]` reads 0 in every state (10_state.md R12). -/
@[simp] theorem reg_zero (s : State) : s.reg 0 = 0 := rfl

/-- Equal register files read equal. -/
theorem reg_congr {s t : State} (h : t.x = s.x) (i : RegIndex) : t.reg i = s.reg i := by
  simp [State.reg, h]

/-- Equal histories read equal. -/
theorem hist_congr {s t : State} (h : t.h = s.h) (j : SlotIndex) : t.hist j = s.hist j := by
  simp [State.hist, h]

/-- A register write read back: the register written (unless it is `x[0]`), and every other as before. -/
theorem reg_writeReg (i j : RegIndex) (v : Word) (s : State) :
    (writeReg i v s).reg j = if j = i ∧ i ≠ 0 then v else s.reg j := by
  by_cases hi : i = 0
  · subst hi; simp
  · by_cases hj : j = i
    · subst hj; simp [State.reg, writeReg_x, hi]
    · have hne : i.val ≠ j.val := fun h => hj (Fin.ext h.symm)
      simp [State.reg, writeReg_x, hi, hj, hne]

/-- A history write read back. -/
theorem hist_set (j k : SlotIndex) (v : Word) (s t : State) (h : t.h = s.h.set j v) :
    t.hist k = if k = j then v else s.hist k := by
  by_cases hk : k = j
  · subst hk; simp [State.hist, h]
  · have hne : j.val ≠ k.val := fun e => hk (Fin.ext e.symm)
    simp [State.hist, h, hk, hne]

/-! Cursors. -/

theorem GpIndex.ne_zero (n : GpIndex) : n.val ≠ 0 := by
  intro h; have := n.isGp; simp [h] at this

/-- The advance of `ni` in numbers (10_state.md R17). -/
theorem GpIndex.next_val (n : GpIndex) :
    n.next.val.val = if n.val.val = 21 then 1 else n.val.val + 1 := by
  unfold GpIndex.next; split <;> simp_all

theorem nextSlot_val (j : SlotIndex) : (nextSlot j).val = (j.val + 1) % 10 := rfl

theorem newestSlot_val (j : SlotIndex) : (newestSlot j).val = (j.val + 9) % 10 := rfl

/-- The slot just written is the newest one. -/
@[simp] theorem newestSlot_nextSlot (j : SlotIndex) : newestSlot (nextSlot j) = j := by
  apply Fin.ext; simp [newestSlot_val, nextSlot_val]; omega

/-- From the sentinel RECALL jumps to the newest slot (41_store_recall.md R72). -/
theorem recallCursor_sentinel (hi ti : SlotIndex) (h : ti.val = 0) : recallCursor hi ti = newestSlot hi := by
  simp [recallCursor, h]

/-- Elsewhere RECALL moves one slot back (R72). -/
theorem recallCursor_back (hi ti : SlotIndex) (h : ti.val ≠ 0) : (recallCursor hi ti).val = ti.val - 1 := by
  simp [recallCursor, h]

/-! Operand fields. -/

@[simp] theorem GpIndex.field_toNat (r : GpIndex) : r.field.toNat = r.val.val := by
  have := r.val.isLt
  simp [GpIndex.field]; omega

@[simp] theorem slotField_toNat (j : SlotIndex) : (slotField j).toNat = j.val := by
  have := j.isLt
  simp [slotField]; omega

/-- The field of a general-purpose register reads that register. -/
@[simp] theorem readOperand_field (r : GpIndex) (s : State) : readOperand r.field s = some (s.reg r.val) := by
  have := r.val.isLt
  simp [readOperand, regOfField]

/-- A field of 22 to 31 reads nothing. -/
theorem readOperand_none (r : BitVec 5) (s : State) (h : 22 ≤ r.toNat) : readOperand r s = none := by
  simp [readOperand, regOfField]; omega

/-- A legal register field is the field of a general-purpose register (30_encoding.md R49). -/
theorem exists_gp_of_isGpField (r : BitVec 5) (h : isGpField r = true) : ∃ g : GpIndex, r = g.field := by
  simp only [isGpField, Bool.and_eq_true, decide_eq_true_eq] at h
  refine ⟨⟨⟨r.toNat, by omega⟩, h.1⟩, ?_⟩
  apply BitVec.eq_of_toNat_eq; simp

@[simp] theorem isGpField_field (g : GpIndex) : isGpField g.field = true := by
  have := g.isGp; have := g.val.isLt
  simp [isGpField]; omega

@[simp] theorem zext32_toNat (imm : BitVec 10) : (zext32 imm).toNat = imm.toNat := by
  have := imm.isLt
  simp [zext32]; omega

/-- What the shared ALU step does with two general-purpose operands (40_alu.md R64). -/
theorem alu_field (op : AluOp) (a b : GpIndex) (s : State) :
    alu op a.field b.field s =
      if op = .div ∧ s.reg b.val = 0 then .next (raiseError .divisionByZero s)
      else .next (appendHistory (aluResult op (s.reg a.val) (s.reg b.val)) s) := by
  simp [alu]

/-- Everything the ALU step can do when it answers a next state. -/
theorem alu_next {op : AluOp} {a b : BitVec 5} {s t : State} (h : alu op a b s = .next t) :
    ∃ va vb, readOperand a s = some va ∧ readOperand b s = some vb ∧
      ((op = .div ∧ vb = 0 ∧ t = raiseError .divisionByZero s) ∨
        (¬(op = .div ∧ vb = 0) ∧ t = appendHistory (aluResult op va vb) s)) := by
  unfold alu at h
  split at h
  next va vb ha hb =>
    refine ⟨va, vb, ha, hb, ?_⟩
    split at h
    next hz => left; cases h; exact ⟨hz.1, hz.2, rfl⟩
    next hz => right; cases h; exact ⟨hz, rfl⟩
  next => cases h

/-! STORE. -/

/-- The register a STORE writes (41_store_recall.md R71). -/
theorem storeNext_reg_ni (imm : BitVec 10) (s : State) : (storeNext imm s).reg s.ni.val = zext32 imm := by
  rw [reg_congr (storeNext_x imm s), reg_writeReg]
  simp [s.ni.ne_zero]

/-- Every other register a STORE leaves. -/
theorem storeNext_reg_ne (imm : BitVec 10) (s : State) (i : RegIndex) (h : i ≠ s.ni.val) :
    (storeNext imm s).reg i = s.reg i := by
  rw [reg_congr (storeNext_x imm s), reg_writeReg]
  simp [h]

end Sys2Proof.Machine
end

