-- ==== Sys2Proof/Laws/PerInstr.lean ====
section
/-! SUPPORT. The per-instruction family OpcodeRow: an instruction's word has the fixed bits of its row of the opcode
map (30_encoding.md R56). -/

namespace Sys2Proof.Laws.OpcodeRow

/-- The word of the instruction, masked, is the match of its row, and its row is one of the table's six. -/
def Statement (i : Instr) : Prop :=
  encode i &&& i.row.maskWord = i.row.matchWord ∧ i.row ∈ opcodeTable

/-- The word of five fields, masked by the ALU rows' mask: opcode and function code remain. -/
theorem word_and_aluMask (s1 s2 : BitVec 5) (st : BitVec 10) (fc : BitVec 6) :
    Fields.word ⟨0, s1, s2, st, fc⟩ &&& 0xFC00003F = fc.zeroExtend 32 := by
  apply BitVec.eq_of_getLsbD_eq
  intro k hk
  interval_cases k <;> simp [Fields.word]

/-- The word of STORE or RECALL, masked by their rows' mask: the opcode remains. -/
theorem word_and_ringMask (op : BitVec 6) (st : BitVec 10) :
    Fields.word ⟨op, 0, 0, st, 0⟩ &&& 0xFFFF003F = op.zeroExtend 32 <<< 26 := by
  apply BitVec.eq_of_getLsbD_eq
  intro k hk
  interval_cases k <;> simp [Fields.word]

theorem add (s1 s2 : BitVec 5) (ign : BitVec 10) : Statement (.add s1 s2 ign) :=
  ⟨(word_and_aluMask s1 s2 ign 32).trans rfl, by simp [Instr.row, opcodeTable]⟩

theorem sub (s1 s2 : BitVec 5) (ign : BitVec 10) : Statement (.sub s1 s2 ign) :=
  ⟨(word_and_aluMask s1 s2 ign 34).trans rfl, by simp [Instr.row, opcodeTable]⟩

theorem mul (s1 s2 : BitVec 5) (ign : BitVec 10) : Statement (.mul s1 s2 ign) :=
  ⟨(word_and_aluMask s1 s2 ign 24).trans rfl, by simp [Instr.row, opcodeTable]⟩

theorem div (s1 s2 : BitVec 5) (ign : BitVec 10) : Statement (.div s1 s2 ign) :=
  ⟨(word_and_aluMask s1 s2 ign 26).trans rfl, by simp [Instr.row, opcodeTable]⟩

theorem store (imm : BitVec 10) : Statement (.store imm) :=
  ⟨(word_and_ringMask 1 imm).trans rfl, by simp [Instr.row, opcodeTable]⟩

theorem recallHistory (ign : BitVec 10) : Statement (.recallHistory ign) :=
  ⟨(word_and_ringMask 33 ign).trans rfl, by simp [Instr.row, opcodeTable]⟩

end Sys2Proof.Laws.OpcodeRow
end

