-- ==== Sys2Proof/Laws/Step.lean ====
section
/-! SUPPORT. What one edge, one step and a run can do, said once. -/

namespace Sys2Proof.Machine

/-- Everything a step can do when it answers a next state: nothing lined up; a reset edge; an idle edge; a rejected
candidate; an executed instruction. -/
theorem step_next {s t : State} (h : step s = .next t) :
    (s.inputs = [] ∧ t = s) ∨
    ∃ p rest, s.inputs = p :: rest ∧
      ((p.rst = true ∧ t = resetEdge { s with inputs := rest }) ∨
       (p.rst = false ∧ p.candValid = false ∧ t = { s with inputs := rest }) ∨
       (p.rst = false ∧ p.candValid = true ∧ ∃ e, decode (portCandidate s.params p) = .error e ∧
          t = raiseError (kindOfDecodeError e) { s with inputs := rest }) ∨
       (p.rst = false ∧ p.candValid = true ∧ ∃ i, decode (portCandidate s.params p) = .ok i ∧
          exec i { s with inputs := rest } = .next t)) := by
  unfold step at h
  split at h
  next hi => left; cases h; exact ⟨hi, rfl⟩
  next p rest hi =>
    right
    refine ⟨p, rest, hi, ?_⟩
    unfold clockEdge at h
    split at h
    next hr => left; cases h; exact ⟨hr, rfl⟩
    next hr =>
      right
      have hr : p.rst = false := by simpa using hr
      split at h
      next hv =>
        right
        unfold transaction at h
        split at h
        next e he => left; cases h; exact ⟨hr, hv, e, he, rfl⟩
        next i he => right; exact ⟨hr, hv, i, he, h⟩
      next hv => left; cases h; exact ⟨hr, by simpa using hv, rfl⟩

/-- Everything a well-formed instruction can do when it answers a next state: a DIV by zero raises, a successful ALU
instruction appends its result, STORE and RECALL have their one effect each. -/
theorem exec_next {i : Instr} {s t : State} (hw : i.wf = true) (h : exec i s = .next t) :
    (∃ a b ign, i = .div (GpIndex.field a) (GpIndex.field b) ign ∧ s.reg b.val = 0 ∧
        t = raiseError .divisionByZero s) ∨
    (∃ op a b ign, i = AluOp.instr op a b ign ∧ ¬(op = .div ∧ s.reg b.val = 0) ∧
        t = appendHistory (aluResult op (s.reg a.val) (s.reg b.val)) s) ∨
    (∃ imm, i = .store imm ∧ t = storeNext imm s) ∨
    (∃ ign, i = .recallHistory ign ∧ t = recallNext s) := by
  have key : ∀ op a b ign, i = AluOp.instr op a b ign → alu op a.field b.field s = .next t →
      (op = .div ∧ s.reg b.val = 0 ∧ t = raiseError .divisionByZero s) ∨
      (¬(op = .div ∧ s.reg b.val = 0) ∧ t = appendHistory (aluResult op (s.reg a.val) (s.reg b.val)) s) := by
    intro op a b ign _ h
    rw [alu_field] at h
    split at h
    next hz => left; cases h; exact ⟨hz.1, hz.2, rfl⟩
    next hz => right; cases h; exact ⟨hz, rfl⟩
  have gp : ∀ {r r' : BitVec 5}, (isGpField r && isGpField r') = true →
      ∃ a b : GpIndex, r = a.field ∧ r' = b.field := by
    intro r r' h
    rw [Bool.and_eq_true] at h
    obtain ⟨a, ha⟩ := exists_gp_of_isGpField r h.1
    obtain ⟨b, hb⟩ := exists_gp_of_isGpField r' h.2
    exact ⟨a, b, ha, hb⟩
  cases i with
  | add r r' ign =>
    obtain ⟨a, b, rfl, rfl⟩ := gp hw
    rcases key .add a b ign rfl h with ⟨hd, -⟩ | hk
    · cases hd
    · exact .inr (.inl ⟨.add, a, b, ign, rfl, hk⟩)
  | sub r r' ign =>
    obtain ⟨a, b, rfl, rfl⟩ := gp hw
    rcases key .sub a b ign rfl h with ⟨hd, -⟩ | hk
    · cases hd
    · exact .inr (.inl ⟨.sub, a, b, ign, rfl, hk⟩)
  | mul r r' ign =>
    obtain ⟨a, b, rfl, rfl⟩ := gp hw
    rcases key .mul a b ign rfl h with ⟨hd, -⟩ | hk
    · cases hd
    · exact .inr (.inl ⟨.mul, a, b, ign, rfl, hk⟩)
  | div r r' ign =>
    obtain ⟨a, b, rfl, rfl⟩ := gp hw
    rcases key .div a b ign rfl h with ⟨-, hz⟩ | hk
    · exact .inl ⟨a, b, ign, rfl, hz⟩
    · exact .inr (.inl ⟨.div, a, b, ign, rfl, hk⟩)
  | store imm => cases h; exact .inr (.inr (.inl ⟨imm, rfl, rfl⟩))
  | recallHistory ign => cases h; exact .inr (.inr (.inr ⟨ign, rfl, rfl⟩))

/-- A run of one more step is that step, then the rest. -/
theorem runFor_succ {n : Nat} {s t : State} (h : step s = .next t) : s.runFor (n + 1) = t.runFor n := by
  have h' : Sys2Proof.core.step s = .next t := h
  simp only [State.runFor, Host.Core.run]
  rw [h']

/-- A run of no step is where it started. -/
@[simp] theorem runFor_zero (s : State) : s.runFor 0 = .next s := rfl

/-- A step with an edge lined up is that edge, on the state without it. -/
theorem step_cons {s : State} {p : Pins} {rest : List Pins} (h : s.inputs = p :: rest) :
    step s = clockEdge p { s with inputs := rest } := by simp [step, h]

/-- An edge that presents a candidate and does not reset is one transaction on the block's port. -/
theorem clockEdge_presents {p : Pins} (s : State) (hr : p.rst = false) (hv : p.candValid = true) :
    clockEdge p s = transaction (portCandidate s.params p) s := by simp [clockEdge, hr, hv]

/-- An edge with neither reset nor candidate changes nothing. -/
theorem clockEdge_idle {p : Pins} (s : State) (h : p.idle) : clockEdge p s = .next s := by
  simp [clockEdge, h.1, h.2]

/-! The instruction port. -/

/-- The port `cand_len` holds the length, where its width can, and the greatest value it can where not. -/
theorem candLenPort_toNat (params : Config.Params) (p : Pins) :
    (candLenPort params p).toNat = min p.candLen (2 ^ params.lenW - 1) := by
  have := Nat.two_pow_pos params.lenW
  rw [candLenPort, BitVec.toNat_ofNat, Nat.mod_eq_of_lt (by omega)]

/-- The saturated length is 32 exactly when the length is: `LEN_W` is at least 6. -/
theorem candLenPort_eq_ilen (params : Config.Params) (p : Pins) :
    (candLenPort params p).toNat = Config.ilen ↔ p.candLen = Config.ilen := by
  have : 2 ^ Config.lenWMin ≤ 2 ^ params.lenW := Nat.pow_le_pow_right (by decide) params.lenW_min
  rw [candLenPort_toNat]
  simp only [Config.ilen, Config.lenWMin] at *
  omega

/-- A presented word stands on the block's port, whichever port it has. -/
@[simp] theorem portCandidate_presentWord (params : Config.Params) (w : Word) :
    portCandidate params (presentWord w) = candidateOfWord params w := by
  have hlen : candLenPort params (presentWord w) = BitVec.ofNat params.lenW Config.ilen := by
    apply BitVec.eq_of_toNat_eq
    rw [(candLenPort_eq_ilen params (presentWord w)).mpr rfl, BitVec.toNat_ofNat, Nat.mod_eq_of_lt (ilen_lt params)]
  cases hm : params.inputMode <;> simp only [portCandidate, candidateOfWord, hm, hlen] <;> rfl

/-- A step on a presented word is the transaction on it. -/
theorem step_presentWord {s : State} {w : Word} {rest : List Pins} (h : s.inputs = presentWord w :: rest) :
    step s = transaction (.word w) { s with inputs := rest } := by
  rw [step_cons h, clockEdge_presents _ rfl rfl]
  simp only [transaction, portCandidate_presentWord, decode_candidateOfWord]

end Sys2Proof.Machine
end

