-- ==== Sys2Proof/Tests/Slice0.lean ====
section
/-! SUPPORT. Tests: the WellFormed smoke tests; decodings of strings and words written out from 30_encoding.md R56 and
95_test_vectors.md; one-step vectors of 95_test_vectors.md; and, for every obligation with hypotheses, a witness that
meets them together. Expected results come from the spec's tables, named at each test. -/

namespace Sys2Proof.Tests
open Sys2Proof.Machine

/-- The characters of a line of text. -/
def line (s : String) : List Char8 := s.toList.map fun c => BitVec.ofNat 8 c.toNat

/-- A next state that meets a test. -/
def nextMeets (o : Host.Outcome State Fault Refusal) (p : State → Bool) : Bool :=
  match o with
  | .next t => p t
  | .fault _ => false
  | .refused _ => false

/-- The reset state with two number registers set, and the cursors. -/
def withRegs (i : Fin 22) (v : Word) (j : Fin 22) (w : Word) (hi ti : Fin 10) : State :=
  { State.reset with x := (State.reset.x.set i v).set j w, hi := hi, ti := ti }

/-- The reset state with two history slots set, and the cursors. -/
def withHist (i : Fin 10) (v : Word) (j : Fin 10) (w : Word) (hi ti : Fin 10) : State :=
  { State.reset with h := (State.reset.h.set i v).set j w, hi := hi, ti := ti }

/-- A block with the word port, and one with the string ports and the narrowest `cand_len`. -/
def wordBlock : Config.Params := ⟨.word, 8, by decide⟩
def narrowBlock : Config.Params := ⟨.string, 6, by decide⟩

/-- A general-purpose register by number. -/
def gp (k : Fin 21) : GpIndex := GpIndex.ofPred k

/-! ## WellFormed smoke tests: an ill-formed term for each check, refused. -/

theorem test_wf_refuses_s1_zero : (Instr.add 0 1 0).wf = false := by decide
theorem test_wf_refuses_s2_zero : (Instr.sub 1 0 0).wf = false := by decide
theorem test_wf_refuses_s1_22 : (Instr.mul 22 1 0).wf = false := by decide
theorem test_wf_refuses_s2_31 : (Instr.div 1 31 0).wf = false := by decide
theorem test_wf_accepts_the_bounds : (Instr.div 1 21 1023).wf = true ∧ (Instr.store 1023).wf = true := by decide

/-! ## Decoding: strings written out bit by bit (95_test_vectors.md section 2.2 and the programs). -/

theorem test_decode_add : decodeLine (line "00000010101101010000000000100000") = .ok (.add 21 21 0) := by decide
theorem test_decode_sub : decodeLine (line "00000000001000101111111111100010") = .ok (.sub 1 2 1023) := by decide
theorem test_decode_mul : decodeLine (line "00000000011001000000000000011000") = .ok (.mul 3 4 0) := by decide
theorem test_decode_div : decodeLine (line "00000000010000010000000000011010") = .ok (.div 2 1 0) := by decide
theorem test_decode_store : decodeLine (line "00000100000000001111111111000000") = .ok (.store 1023) := by decide
theorem test_decode_recall : decodeLine (line "10000100000000000000000111000000") = .ok (.recallHistory 7) := by decide

/-- DV1, DV3, DV4: the length comes first. -/
theorem test_decode_length :
    decodeLine [] = .error .invalidLength ∧
    decodeLine (line "00000100000000000000000101000000\n") = .error .invalidLength ∧
    decodeLine (line "aaaaaaaaaaaaaaaaaaaaaaaaaaaaaaa") = .error .invalidLength := by decide

/-- DV5, DV6: a bad character, also in the ignored store field. -/
theorem test_decode_characters :
    decodeLine (line "00000100000000000000000101000002") = .error .invalidCharacters ∧
    decodeLine (line "00000000001000100000 00000100000") = .error .invalidCharacters := by decide

/-- DV8, DV20: the function code is checked before the registers. DV10, DV21: the registers. DV25 to DV27: the opcode. -/
theorem test_decode_word_errors :
    decode (.word 0x00000001) = .error .invalidFunctionCode ∧
    decode (.word 0x04600005) = .error .invalidOpcodeFunctionCombo ∧
    decode (.word 0x00000020) = .error .invalidRegisterIndex ∧
    decode (.word 0x04600000) = .error .invalidRegisterIndex ∧
    decode (.word 0x08220020) = .error .invalidOpcode ∧
    decode (.word 0x88000000) = .error .invalidOpcode := by decide

/-- B4, B5: the bit-field reader. -/
theorem test_field : field (line "00000100000000000000000101000000") 16 10 = 5 ∧
    field (List.replicate 32 charOne) 16 10 = 1023 := by decide

/-- The words of the programs P1 and P3 (95_test_vectors.md section 3). -/
theorem test_encode : encode (.add 1 2 0) = 0x00220020 ∧ encode (.store 10) = 0x04000280 ∧
    encode (.recallHistory 0) = 0x84000000 := by decide

/-- R43's own example of the packing. -/
theorem test_packing : (charsOfWord 0x04000140).toList = line "00000100000000000000000101000000" := by decide

/-- R59's own spellings. -/
theorem test_spell : spell (.add 1 2 5) = "add r1, r2, #5" ∧ spell (.recallHistory 7) = "recall #7" ∧
    spell (.store 5) = "store 5" := by decide

/-- The assembly and word columns of 95_test_vectors.md (P1 step 3, V29, V37's word with R59's `#7`), and R59's refusals. -/
theorem test_assembleText :
    assembleText "add r1, r2" = some 0x00220020 ∧ assembleText "store 0x3ff" = some 0x0400FFC0 ∧
    assembleText "store 0b101" = some 0x04000140 ∧ assembleText "recall #7" = some 0x840001C0 ∧
    assembleText "sub r1, r2, #1023" = some 0x0022FFE2 ∧ assembleText "add r0, r1" = none ∧
    assembleText "div r1, r22" = none ∧ assembleText "store 1024" = none ∧ assembleText "nop" = none := by decide

theorem test_decodeTableWord : decodeTableWord 32 0x0022001A = some (.div 1 2 0) ∧
    decodeTableWord 32 0x0000001A = none := by decide

/-! ## One-step vectors (95_test_vectors.md sections 2.3 to 2.6). -/

/-- V4. -/
theorem test_add_wraps_the_ring : nextMeets (exec (.add 1 1 0) (withRegs 1 300 2 0 9 0))
    (fun t => t.hist 9 == 600 && t.hi == 0 && t.status == ⟨.okArith, 600, 9⟩) = true := by decide

/-- V5. -/
theorem test_add_wraps_32_bits : nextMeets (exec (.add 1 2 0) (withRegs 1 0x7FFFFFFF 2 1 0 0))
    (fun t => t.hist 0 == 0x80000000) = true := by decide

/-- V7, V8: the operand order of SUB. -/
theorem test_sub_order : nextMeets (exec (.sub 1 2 0) (withRegs 1 3 2 5 0 0))
    (fun t => t.status.value == 0xFFFFFFFE) = true ∧
    nextMeets (exec (.sub 2 1 0) (withRegs 1 3 2 5 0 0)) (fun t => t.status.value == 2) = true := by decide

/-- V11. -/
theorem test_sub_wraps : nextMeets (exec (.sub 1 2 0) (withRegs 1 0x80000000 2 1 0 0))
    (fun t => t.hist 0 == 0x7FFFFFFF) = true := by decide

/-- V12. -/
theorem test_mul : nextMeets (exec (.mul 3 4 0) (withRegs 3 6 4 7 2 0))
    (fun t => t.hist 2 == 42 && t.hi == 3 && t.status == ⟨.okArith, 42, 2⟩) = true := by decide

/-- V17. -/
theorem test_mul_drops_high_bits : nextMeets (exec (.mul 1 2 0) (withRegs 1 0x7FFFFFFF 2 2 0 0))
    (fun t => t.hist 0 == 0xFFFFFFFE) = true := by decide

/-- V24, V25, V27: rounding toward zero, and the overflowing quotient. -/
theorem test_div_rounds_toward_zero :
    nextMeets (exec (.div 1 2 0) (withRegs 1 0xFFFFFFF9 2 2 0 0)) (fun t => t.status.value == 0xFFFFFFFD) = true ∧
    nextMeets (exec (.div 1 2 0) (withRegs 1 7 2 0xFFFFFFFE 0 0)) (fun t => t.status.value == 0xFFFFFFFD) = true ∧
    nextMeets (exec (.div 1 2 0) (withRegs 1 0x80000000 2 0xFFFFFFFF 0 0))
      (fun t => t.status.value == 0x80000000) = true := by decide

/-- V21. -/
theorem test_div_by_zero : nextMeets (exec (.div 1 2 0) { withHist 0 99 1 0 0 0 with x := State.reset.x.set 1 5 })
    (fun t => t.hist 0 == 99 && t.hi == 0 && t.status.code.bits == 0xE && t.status.value == 0) = true := by decide

/-- V29. -/
theorem test_store_at_21_wraps : nextMeets (exec (.store 1023) { State.reset with ni := gp 20 })
    (fun t => t.reg 21 == 1023 && t.ni.val == 1 && t.status == ⟨.okStore, 1023, 21⟩) = true := by decide

/-- V30. -/
theorem test_store_overwrites : nextMeets (exec (.store 0) { withRegs 7 55 8 9 0 0 with ni := gp 6 })
    (fun t => t.reg 7 == 0 && t.reg 8 == 9 && t.ni.val == 8) = true := by decide

/-- V35: the sentinel jump wraps to slot 9. -/
theorem test_recall_wraps : nextMeets (exec (.recallHistory 0) (withHist 9 44 0 1 0 0))
    (fun t => t.ti == 9 && t.status == ⟨.okRecall, 44, 9⟩) = true := by decide

/-- V37: the walk goes on; it does not jump to the newest slot. -/
theorem test_recall_continues_the_walk : nextMeets (exec (.recallHistory 0) (withHist 4 0xFFFFFFFB 6 8 7 5))
    (fun t => t.ti == 4 && t.status == ⟨.okRecall, 0xFFFFFFFB, 4⟩) = true := by decide

/-- T3: reset beats the candidate. -/
theorem test_reset_discards_the_candidate :
    nextMeets (step { withRegs 1 5 2 10 1 0 with
        inputs := [{ presentWord 0x04000140 with rst := true }] })
      (fun t => t == State.reset) = true := by decide

/-- P4 step 5: a rejected candidate changes the status alone. -/
theorem test_rejected_candidate : nextMeets (transaction (.string 8 33 (charsOfWord 0x04000040)) (withRegs 1 9 2 0 1 0))
    (fun t => t.x == (withRegs 1 9 2 0 1 0).x && t.ni.val == 1 && t.statusCodePort == 0x8) = true := by decide

/-- From reset the very next step runs the stored table word (STORE 5, V28). -/
theorem test_withFetchWord : nextMeets (step (State.reset.withFetchWord 32 0x04000140))
    (fun t => t.reg 1 == 5 && t.ni.val == 2 && t.inputs == []) = true ∧
    nextMeets (step ({ State.reset with params := wordBlock }.withFetchWord 32 0x04000140))
    (fun t => t.reg 1 == 5 && t.ni.val == 2) = true := by decide

/-- R5, R6: with `INPUT_MODE` the one or the other port is read. On this edge the string ports hold STORE 5 with a newline
after it, the word port STORE 5. -/
theorem test_input_mode :
    nextMeets (step { State.reset with inputs := [{ presentWord 0x04000140 with candLen := 33 }] })
      (fun t => t.statusCodePort == 0x8 && t.reg 1 == 0) = true ∧
    nextMeets (step { State.reset with params := wordBlock, inputs := [{ presentWord 0x04000140 with candLen := 33 }] })
      (fun t => t.statusCodePort == 0x2 && t.reg 1 == 5) = true := by decide

/-- R7's danger: a length of 288 wrapped to 8 bits would read as 32. The port saturates, at 255 with `LEN_W = 8` and at 63
with `LEN_W = 6`. -/
theorem test_cand_len_saturates :
    (candLenPort Config.defaultParams { presentWord 0 with candLen := 288 }).toNat = 255 ∧
    (candLenPort narrowBlock { presentWord 0 with candLen := 288 }).toNat = 63 ∧
    (candLenPort narrowBlock { presentWord 0 with candLen := 63 }).toNat = 63 ∧
    (candLenPort narrowBlock (presentWord 0)).toNat = 32 := by decide

/-! ## Witnesses: for each obligation with hypotheses, values that meet them together. -/

theorem witness_DecodeOfEncodeIsIdentity : ∀ i ∈ [Instr.add 1 21 0, .sub 21 1 5, .mul 2 2 0, .div 1 2 1023, .store 0,
    .recallHistory 7], i.wf = true := by decide

theorem witness_AcceptedWordIsItsEncoding : decode (.word 0x02B50020) = .ok (.add 21 21 0) := by decide

theorem witness_AcceptedWordsAreTheOpcodeMap :
    ∃ r ∈ opcodeTable, r.accepts 0x0022001A = true ∧ decode (.word 0x0022001A) = .ok (.div 1 2 0) :=
  ⟨⟨0x0000001A, 0xFC00003F, true⟩, by decide, by decide, by decide⟩

/-- One word per clause, at the clauses' bounds: DV9; DV11, DV12, DV16; DV13; DV24; DV21, DV22; DV25, DV26, DV27. -/
theorem witness_IllegalWordsReportTheRuledKind :
    let op := fun w : Word => (w.extractLsb' 26 6).toNat
    let s1 := fun w : Word => (w.extractLsb' 21 5).toNat
    let s2 := fun w : Word => (w.extractLsb' 16 5).toNat
    let fc := fun w : Word => (w.extractLsb' 0 6).toNat
    (op 0x00220021 = 0 ∧ fc 0x00220021 = 33) ∧
    (op 0x02C10020 = 0 ∧ fc 0x02C10020 = 32 ∧ s1 0x02C10020 = 22) ∧
    (op 0x003F0020 = 0 ∧ fc 0x003F0020 = 32 ∧ s2 0x003F0020 = 31) ∧
    (op 0x0003001A = 0 ∧ fc 0x0003001A = 26 ∧ s1 0x0003001A = 0) ∧
    (op 0x02B50020 = 0 ∧ s1 0x02B50020 = 21 ∧ s2 0x02B50020 = 21) ∧
    (op 0x8400003F = 33 ∧ fc 0x8400003F = 63) ∧
    (op 0x04600000 = 1 ∧ fc 0x04600000 = 0 ∧ s1 0x04600000 = 3) ∧
    (op 0x84010000 = 33 ∧ fc 0x84010000 = 0 ∧ s2 0x84010000 = 1) ∧
    op 0x08220020 = 2 ∧ op 0x80000000 = 32 ∧ op 0x88000000 = 34 := by decide

theorem witness_LengthThenCharactersAreChecked : (31 : BitVec 6).toNat ≠ 32 ∧ (33 : BitVec 8).toNat ≠ 32 ∧
    (32 : BitVec 6).toNat = 32 ∧
    ∃ chr : Vector Char8 32, ∃ p : Fin 32, chr[p] ≠ 0x30 ∧ chr[p] ≠ 0x31 :=
  ⟨by decide, by decide, by decide, (charsOfWord 0).set 31 0x32, 31, by decide, by decide⟩

/-- A line of 32, a line with a trailing newline, a short one, and with `LEN_W = 6` a line of 64 characters, which
saturates at 63. -/
theorem witness_PresentedLineDecodesAsTheLine :
    Config.defaultParams.inputMode = .string ∧ narrowBlock.inputMode = .string ∧
    presentsLine (line "00000100000000000000000101000000") (presentWord 0x04000140) = true ∧
    presentsLine (line "00000100000000000000000101000000\n") { presentWord 0x04000140 with candLen := 33 } = true ∧
    presentsLine (line "0000") { presentWord 0x04000140 with candLen := 4 } = true ∧
    presentsLine (List.replicate 64 charZero) { presentWord 0 with candLen := 64 } = true := by decide

theorem witness_WordFormIsTheStringForm : Config.lenWMin ≤ 6 ∧
    ∀ p : Fin 32, (charsOfWord 0x84000000)[p] = charZero ∨ (charsOfWord 0x84000000)[p] = charOne := by decide

/-- Edges that differ only on the port the block does not have, in a block of each mode (OnlyTheBlocksOwnPortIsRead); in
the string mode also two lengths that saturate to the same `cand_len`. -/
theorem witness_OnlyTheBlocksOwnPortIsRead :
    let p := presentWord 0x04000140
    let q := { p with instrWord := 0 }
    let r := { p with candLen := 33, candChr := charsOfWord 0 }
    narrowBlock.inputMode = .string ∧ candLenPort narrowBlock p = candLenPort narrowBlock q ∧ p.candChr = q.candChr ∧
    p ≠ q ∧ candLenPort narrowBlock { p with candLen := 64 } = candLenPort narrowBlock { p with candLen := 63 } ∧
    wordBlock.inputMode = .word ∧ p.instrWord = r.instrWord ∧ p ≠ r := by decide

/-- A block with the word port whose status still shows `InvalidLength` (no run reaches it) at an idle edge: the first
clause's hypotheses. A state such a block reaches, after a rejected word: the second's. -/
theorem witness_WordBlockNeverReportsLengthOrCharacters :
    nextMeets (step { raiseError .invalidLength State.reset with params := wordBlock })
      (fun t => t.status.code == .error .invalidLength) = true ∧
    (raiseError .invalidOpcode { State.reset with params := wordBlock }).Reachable :=
  ⟨by decide, wordBlock, [presentWord 0x1C220020], 1, rfl⟩

/-- A step and an execution (ParametersAreFixed). -/
theorem witness_ParametersAreFixed :
    nextMeets (step { State.reset with params := wordBlock, inputs := [{ presentWord 0 with rst := true }] })
      (fun t => t.params == wordBlock) = true ∧
    exec (.store 3) State.reset = .next (storeNext 3 State.reset) := ⟨by decide, rfl⟩

theorem witness_StoreFieldIsNeverValidatedAndIgnored :
    (0x0022FFE2 : Word) &&& 0xFFFF003F = (0x00220022 : Word) &&& 0xFFFF003F ∧
    (0x0022FFE2 : Word).extractLsb' 26 6 ≠ 1 := by decide

theorem witness_AssemblerRefusesWhatTheBlockRejects :
    (Instr.add 0 1 0).wf = false ∧ (Instr.add 1 1 0).wf = true := by decide

/-- An idle edge with STORE 5 on the port. -/
def idleStore : Pins := { presentWord 0x04000140 with candValid := false }

/-- Reset, idle and candidate edges lined up (the hypotheses of ResetEdgeSetsEveryElement, IdleEdgesChangeNothing,
PortsShowTheLastOutcome, StepRunsTheDecodedInstruction and ErrorsChangeOnlyTheStatus). -/
theorem witness_edges :
    ({ presentWord 0x04000140 with rst := true } : Pins).rst = true ∧
    ({ State.reset with inputs := [idleStore] } : State).inputs = [idleStore] ++ [] ∧
    (idleStore.rst = false ∧ idleStore.candValid = false) ∧
    (presentWord 0x04000140).rst = false ∧ (presentWord 0x04000140).candValid = true ∧
    decode (portCandidate Config.defaultParams (presentWord 0x04000140)) = .ok (.store 5) ∧
    decode (portCandidate wordBlock (presentWord 0x04000140)) = .ok (.store 5) ∧
    decode (portCandidate Config.defaultParams (presentWord 0)) = .error .invalidFunctionCode ∧
    State.reset.reg (gp 1).val = 0 := by decide

theorem witness_StoredFetchWordRunsNext :
    0x840001C0 < 2 ^ 32 ∧ decodeTableWord 32 0x840001C0 = some (.recallHistory 7) := by decide

/-- A DIV by the zero register `x[2]` reports an error (also a witness for RejectedCandidateIsIdempotent's shape). -/
theorem witness_NoOtherConditionIsAnError :
    nextMeets (step { State.reset with inputs := [presentWord 0x0022001A] })
      (fun t => t.status.code == .error .divisionByZero) = true ∧
    decode (portCandidate Config.defaultParams (presentWord 0x0022001A)) = .ok (.div (gp 0).field (gp 1).field 0) := by decide

theorem witness_RejectedCandidateIsIdempotent : decode (.word 0x1C220020) = .error .invalidOpcode ∧
    transaction (.word 0x1C220020) State.reset = .next (raiseError .invalidOpcode State.reset) :=
  ⟨by decide, rfl⟩

theorem witness_TransactionIsOneCompleteMutation :
    transaction (.word 0x84000000) State.reset = .next (recallNext State.reset) := rfl

theorem witness_UnnamedRegisterStopsByName : 22 ≤ (22 : BitVec 5).toNat ∧ 22 ≤ (31 : BitVec 5).toNat := by decide

theorem witness_ArithmeticLaws : (2 : Word) ≠ 0 ∧ ¬((0xFFFFFFF9 : Word) = 0x80000000 ∧ (2 : Word) = 0xFFFFFFFF) ∧
    ¬((0x80000000 : Word) = 0x80000000 ∧ (1 : Word) = 0xFFFFFFFF) := by decide

/-- A nonzero divisor register, and a zero one (AluStepAppendsOrRaises, DivAppendsTheSignedQuotient, SameSourceTwice,
RecallReturnsTheLatestResult). -/
theorem witness_divisors : (withRegs 1 10 2 3 0 0).reg (gp 1).val ≠ 0 ∧ (withRegs 1 10 2 3 0 0).reg (gp 2).val = 0 ∧
    (withRegs 1 10 2 3 0 0).ti.val = 0 := by decide

/-- A reachable state with a number stored (NoOverflowFromReset, ReachableValuesAreBounded). -/
theorem witness_reachable : (storeNext 5 State.reset).Reachable :=
  ⟨Config.defaultParams, [presentWord 0x04000140], 1, rfl⟩

/-- An executed instruction of each kind (ZeroRegisterIsHardwired, OnlyStoreWritesNumberRegisters). -/
theorem witness_executions :
    exec (.recallHistory 3) State.reset = .next (recallNext State.reset) ∧
    exec (.store 3) State.reset = .next (storeNext 3 State.reset) ∧
    exec (.add 1 2 0) State.reset = .next (appendHistory 0 State.reset) := ⟨rfl, rfl, rfl⟩

theorem witness_OnlyTheAluReadsNumberRegisters :
    (State.reset.x.set 5 7)[(gp 0).val] = State.reset.x[(gp 0).val] ∧
    (State.reset.x.set 5 7)[(gp 1).val] = State.reset.x[(gp 1).val] := by decide

/-- A STORE at `ni = 21`, a successful ADD at `hi = 9`, a RECALL at the sentinel and a reset, each one step
(NumbersIndexMovesOnlyByStore, HistoryIndexMovesOnlyByAluSuccess, RecallCursorMovesOnlyByRecall). -/
theorem witness_cursor_steps :
    nextMeets (step { State.reset with ni := gp 20, inputs := [presentWord 0x04000140] })
      (fun t => t.ni.val == 1) = true ∧
    nextMeets (step { State.reset with hi := 9, inputs := [presentWord 0x00220020] })
      (fun t => t.hi == 0) = true ∧
    nextMeets (step { State.reset with hi := 1, inputs := [presentWord 0x84000000] })
      (fun t => t.ti == 0) = true ∧
    nextMeets (step { State.reset with ti := 4, inputs := [{ presentWord 0 with rst := true }] })
      (fun t => t.ti == 0) = true := by decide

/-- An idle edge moves no cursor, though a STORE or a RECALL stands on the port. -/
theorem test_idle_edge_moves_no_cursor :
    nextMeets (step { State.reset with inputs := [idleStore] }) (fun t => t == State.reset) = true ∧
    nextMeets (step { State.reset with hi := 3, inputs := [{ presentWord 0x84000000 with candValid := false }] })
      (fun t => t.ti == 0) = true := by decide

/-- A program of a STORE, a RECALL, an idle edge with a STORE on the port, a rejected word and an ADD, then a STORE: the
count before it is 1, and its own register is `x[2]` (StoreCountSelectsTheRegister, UnstoredRegistersReadZero). -/
def mixedEdges : List Pins :=
  [presentWord 0x04000140, presentWord 0x84000000, idleStore, presentWord 0x1C220020, presentWord 0x00220020]

theorem witness_StoreCountSelectsTheRegister :
    (∀ q ∈ mixedEdges, q.rst = false) ∧ storeCount Config.defaultParams mixedEdges = 1 ∧
    storeCount wordBlock mixedEdges = 1 ∧
    decode (portCandidate Config.defaultParams (presentWord 0x04000280)) = .ok (.store 10) ∧
    nextMeets ((State.resetWith Config.defaultParams (mixedEdges ++ [presentWord 0x04000280])).runFor 6)
      (fun t => t.reg 2 == 10 && t.reg 3 == 0 && t.status.index == 2) = true := by decide

/-- The three clauses of SuccessiveRecallsWalkTheRing: the sentinel, the jump to 9 from it, a walk under way. -/
theorem witness_SuccessiveRecallsWalkTheRing : State.reset.ti.val = 0 ∧ State.reset.hi.val = 0 ∧
    nextMeets (exec (.recallHistory 0) State.reset) (fun t => t.ti == 9) = true ∧
    nextMeets (exec (AluOp.instr .add (gp 0) (gp 1) 0) (withHist 4 1 6 8 7 5)) (fun t =>
      nextMeets (exec (.recallHistory 0) t) fun u => u.ti == 4) = true := by decide

/-- The sentinel, a walk one step from slot 0, and `hi = 1` at the sentinel. -/
theorem witness_SentinelAlwaysRestartsTheWalk : (withHist 0 3 1 7 3 0).ti.val = 0 ∧ (withHist 0 3 1 7 3 1).ti.val = 1 ∧
    (withHist 0 12 1 0 1 0).ti.val = 0 ∧ (withHist 0 12 1 0 1 0).hi.val = 1 := by decide

/-- A run of two edges from reset, a STORE and a DIV by zero: no state of it shows `OK_ARITH`. -/
theorem witness_RecallOfAnEmptyHistoryReadsZero :
    let s := State.resetWith wordBlock [presentWord 0x04000140, presentWord 0x0022001A]
    (∃ t, s.runFor 2 = .next t) ∧
    ∀ (m : Nat) (u : State), m ≤ 2 → s.runFor m = .next u → u.status.code ≠ .okArith := by
  refine ⟨⟨_, rfl⟩, ?_⟩
  intro m u hm hu
  have h : m = 0 ∨ m = 1 ∨ m = 2 := by omega
  rcases h with rfl | rfl | rfl <;> cases hu <;> decide

/-- A legal state other than reset (the end of program P1), and a step from it. -/
def legalState : State :=
  { withRegs 1 5 2 10 1 0 with
    h := State.reset.h.set 0 15, ni := gp 2, status := ⟨.okArith, 15, 0⟩,
    inputs := [presentWord 0x84000000] }

theorem witness_StepKeepsLegalStates : legalState.Legal ∧ step legalState = .next (recallNext { legalState with inputs := [] }) :=
  ⟨⟨by decide, by decide, by decide, by decide⟩, rfl⟩

end Sys2Proof.Tests
end

section
/-! SUPPORT. The decoder's reading of a word, as slices of the word (30_encoding.md R42 to R44), and of the instruction
port (00_scope.md R6, R7). -/

namespace Sys2Proof

/-! The characters of a word, read back. -/

/-- Reading a character of the string that packs to `w` gives the bit of `w` at that position (R43, R44). -/
theorem bitOfChar_charsOfWord (w : Word) (p : Nat) (h : p < 32) :
    bitOfChar ((charsOfWord w).toList.getD p charZero) = w.toNat / 2 ^ (31 - p) % 2 := by
  have hchar : (charsOfWord w).toList.getD p charZero = if w.getLsbD (31 - p) then charOne else charZero := by
    simp [List.getD_eq_getElem?_getD, h, charsOfWord_get]
  have hbit : w.getLsbD (31 - p) = decide (w.toNat / 2 ^ (31 - p) % 2 = 1) := by
    rw [← BitVec.testBit_toNat, Nat.testBit_eq_decide_div_mod_eq]
  rw [hchar, hbit]
  rcases Nat.mod_two_eq_zero_or_one (w.toNat / 2 ^ (31 - p)) with hb | hb
  · simp [hb, bitOfChar, charZero, charOne]
  · simp [hb, bitOfChar]

/-- The bit-field reader on the string that packs to `w` reads the slice of `w` at the same positions: each further
character doubles the value read and adds the slice's next lower bit (R42, R44). -/
theorem field_charsOfWord (w : Word) (start len : Nat) (h : start + len ≤ 32) :
    field (charsOfWord w).toList start len = (w.extractLsb' (32 - (start + len)) len).toNat := by
  simp only [BitVec.extractLsb'_toNat, Nat.shiftRight_eq_div_pow]
  induction len with
  | zero => simp [field, Nat.mod_one]
  | succ k ih =>
    have hhigh : 32 - (start + k) = 31 - (start + k) + 1 := by omega
    have hlow : 31 - (start + k) = 32 - (start + (k + 1)) := by omega
    calc field (charsOfWord w).toList start (k + 1)
        = 2 * (w.toNat / 2 ^ (31 - (start + k) + 1) % 2 ^ k) + w.toNat / 2 ^ (31 - (start + k)) % 2 := by
          rw [field, ih (by omega), bitOfChar_charsOfWord w _ (by omega), hhigh]
      _ = w.toNat / 2 ^ (31 - (start + k)) % 2 ^ (k + 1) := by
          rw [Nat.pow_succ, ← Nat.div_div_eq_div_mul, Nat.pow_succ', Nat.mod_mul, Nat.add_comm]
      _ = w.toNat / 2 ^ (32 - (start + (k + 1))) % 2 ^ (k + 1) := by rw [hlow]

/-- Step 3 on the string that packs to `w` extracts the slices of R42's table (R43, R47). -/
theorem extractFields_charsOfWord (w : Word) : extractFields (charsOfWord w).toList =
    ⟨w.extractLsb' 26 6, w.extractLsb' 21 5, w.extractLsb' 16 5, w.extractLsb' 6 10, w.extractLsb' 0 6⟩ := by
  simp only [extractFields, field_charsOfWord, Nat.reduceAdd, Nat.reduceSub, Nat.reduceLeDiff, BitVec.ofNat_toNat,
    BitVec.setWidth_eq]

/-- A word decodes as its fields do: steps 1 and 2 pass (R43). -/
theorem decode_word (w : Word) : decode (.word w) = decodeFields (extractFields (charsOfWord w).toList) := by
  simp only [decode, decodeChars, charsOfWord_all, ne_eq, not_true_eq_false, Bool.not_true, Bool.false_eq_true, if_false]

/-! The encoder's word, taken apart again. -/

/-- The slices of the word of five fields are the five fields: each bit of a slice lies under the shift of its own field
and of no other (R42). -/
theorem extractFields_word (f : Fields) : extractFields (charsOfWord f.word).toList = f := by
  obtain ⟨op, s1, s2, st, fc⟩ := f
  rw [extractFields_charsOfWord]
  congr 1 <;> apply BitVec.eq_of_getLsbD_eq <;> intro k hk <;> interval_cases k <;> simp [Fields.word]

/-- The word of a well-formed instruction decodes to it (R42, R55). -/
theorem decode_encode (i : Instr) (h : i.wf = true) : decode (.word (encode i)) = .ok i := by
  rw [decode_word, encode, extractFields_word, decodeFields_fields i h]

/-! The length check. -/

/-- R45: a length other than 32 is reported first. -/
theorem decodeChars_invalidLength {len : Nat} (c : List Char8) (h : len ≠ Config.ilen) :
    decodeChars len c = .error .invalidLength := by
  simp [decodeChars, h]

end Sys2Proof

namespace Sys2Proof.Machine

/-! The string ports and the word port. -/

/-- The port of a block with `INPUT_MODE = STRING` (R6). -/
theorem portCandidate_string {params : Config.Params} (h : params.inputMode = .string) (p : Pins) :
    portCandidate params p = .string params.lenW (candLenPort params p) p.candChr := by
  simp [portCandidate, h]

/-- The port of a block with `INPUT_MODE = WORD` (R6). -/
theorem portCandidate_word {params : Config.Params} (h : params.inputMode = .word) (p : Pins) :
    portCandidate params p = .word p.instrWord := by
  simp [portCandidate, h]

/-- The driver of R7 gives the line's own length. -/
theorem candLen_of_presentsLine {line : List Char8} {p : Pins} (h : presentsLine line p = true) :
    p.candLen = line.length := by
  simp only [presentsLine, Bool.and_eq_true, beq_iff_eq] at h
  exact h.1

/-- A presented line of 32 characters fills every position of `cand_chr` (R7). -/
theorem candChr_of_presentsLine {line : List Char8} {p : Pins} (h : presentsLine line p = true)
    (hlen : line.length = Config.ilen) : p.candChr.toList = line := by
  simp only [presentsLine, Bool.and_eq_true, List.all_eq_true, beq_iff_eq] at h
  obtain ⟨-, hchars⟩ := h
  have hpos : List.Forall₂ (· = ·) p.candChr.toList line :=
    List.forall₂_iff_zip.mpr ⟨by simp [hlen, Config.ilen], fun hq => hchars _ hq⟩
  rwa [List.forall₂_eq_eq_eq] at hpos

/-- An edge depends on what stands on the block's own port, and on no other value of its pins (R6). -/
theorem clockEdge_congr {s : State} {p q : Pins} (hr : p.rst = q.rst) (hv : p.candValid = q.candValid)
    (hc : portCandidate s.params p = portCandidate s.params q) : clockEdge p s = clockEdge q s := by
  simp only [clockEdge, hr, hv, hc]

/-! The parameters. -/

/-- The shared ALU step keeps the parameters, whether it appends or raises. -/
theorem alu_params {op : AluOp} {a b : BitVec 5} {s t : State} (h : alu op a b s = .next t) : t.params = s.params := by
  obtain ⟨va, vb, -, -, ⟨-, -, rfl⟩ | ⟨-, rfl⟩⟩ := alu_next h <;> simp

/-- No instruction, well formed or not, changes a parameter (00_scope.md R5). -/
theorem exec_params {i : Instr} {s t : State} (h : exec i s = .next t) : t.params = s.params := by
  cases i with
  | add s1 s2 ign => exact alu_params (op := .add) h
  | sub s1 s2 ign => exact alu_params (op := .sub) h
  | mul s1 s2 ign => exact alu_params (op := .mul) h
  | div s1 s2 ign => exact alu_params (op := .div) h
  | store imm => cases h; exact storeNext_params imm s
  | recallHistory ign => cases h; exact recallNext_params s

/-- No step changes a parameter (R5). -/
theorem step_params {s t : State} (h : step s = .next t) : t.params = s.params := by
  obtain ⟨-, rfl⟩ | ⟨p, rest, -, ⟨-, rfl⟩ | ⟨-, -, rfl⟩ | ⟨-, -, e, -, rfl⟩ | ⟨-, -, i, -, hi⟩⟩ := step_next h
  case inl => rfl
  case inr.inl => simp
  case inr.inr.inl => rfl
  case inr.inr.inr.inl => simp
  case inr.inr.inr.inr => exact exec_params (s := { s with inputs := rest }) hi

end Sys2Proof.Machine
end

section
/-! PROOFS. The statements about the block's scope (00_scope.md): the round trip of the encoder on every block, the
string ports, the parameters, the block's own port. -/

namespace Sys2Proof.Machine

/-- Settles O4: the fields of a well-formed instruction survive packing into the word and reading back character by
character, and decode to it; the port, whichever the block has, carries that word. -/
theorem decodeOfEncodeIsIdentity : Obligations.DecodeOfEncodeIsIdentity := by
  intro params i hw
  have hport : decode (candidateOfWord params (encode i)) = .ok i :=
    (decode_candidateOfWord params (encode i)).trans (decode_encode i hw)
  refine ⟨hport, ?_⟩
  rwa [presentInstr, portCandidate_presentWord]

/-- Settles O9: saturation keeps the length 32 apart from every other, so a line of another length is rejected with its
length on both sides, and a line of 32 characters is what stands on `cand_chr`. -/
theorem presentedLineDecodesAsTheLine : Obligations.PresentedLineDecodesAsTheLine := by
  intro params line p hmode hline
  have hcand := candLen_of_presentsLine hline
  have hsat := candLenPort_eq_ilen params p
  rw [hcand] at hsat
  have hport : decode (portCandidate params p) = decodeChars (candLenPort params p).toNat p.candChr.toList := by
    rw [portCandidate_string hmode, decode]
  have hbad : line.length ≠ Config.ilen → decode (portCandidate params p) = .error .invalidLength := fun hne =>
    hport.trans (decodeChars_invalidLength _ (mt hsat.mp hne))
  refine ⟨hcand ▸ candLenPort_toNat params p, ?_, hbad⟩
  by_cases hlen : line.length = Config.ilen
  · rw [hport, hsat.mpr hlen, candChr_of_presentsLine hline hlen, decodeLine, hlen]
  · rw [hbad hlen, decodeLine, decodeChars_invalidLength _ hlen]

/-- Settles O51: the reset values by evaluation, the bound from the parameters' type, and the frame of a step and of an
execution. -/
theorem parametersAreFixed : Obligations.ParametersAreFixed :=
  ⟨rfl, rfl, fun s => s.params.lenW_min, fun _ _ => step_params, fun _ _ _ => exec_params⟩

/-- Settles O52: edges that agree on the block's own port present the same candidate. -/
theorem onlyTheBlocksOwnPortIsRead : Obligations.OnlyTheBlocksOwnPortIsRead := by
  intro s p q hr hv
  constructor
  · intro hmode hlen hchr
    exact clockEdge_congr hr hv (by rw [portCandidate_string hmode, portCandidate_string hmode, hlen, hchr])
  · intro hmode hword
    exact clockEdge_congr hr hv (by rw [portCandidate_word hmode, portCandidate_word hmode, hword])

end Sys2Proof.Machine
end

section
/-! SUPPORT. The rules about the state's elements (10_state.md): the status codes, the ALU's effect and the values it
gives, who writes the number registers, what one step does to the computational state, which effects keep a state legal,
and runs. -/

namespace Sys2Proof.Machine

/-! The status codes. -/

/-- The twelve names of R23's table. -/
def StatusCode.all : List StatusCode :=
  [.none, .okArith, .okStore, .okRecall, .error .invalidLength, .error .invalidCharacters, .error .invalidFunctionCode,
    .error .invalidOpcodeFunctionCombo, .error .invalidOpcode, .error .invalidRegisterIndex, .error .divisionByZero,
    .error .unknownInstruction]

theorem StatusCode.mem_all (c : StatusCode) : c ∈ StatusCode.all := by
  cases c with
  | error k => cases k <;> decide
  | _ => decide

/-- One code per name (R23). -/
theorem StatusCode.bits_injective {c c' : StatusCode} (h : c.bits = c'.bits) : c = c' :=
  have table : ∀ c ∈ StatusCode.all, ∀ c' ∈ StatusCode.all, c.bits = c'.bits → c = c' := by decide
  table c c.mem_all c' c'.mem_all h

/-- The reserved codes 4 to 7 are no name's (R23). -/
theorem StatusCode.bits_not_reserved (c : StatusCode) : c.bits.toNat < 4 ∨ 8 ≤ c.bits.toNat :=
  have table : ∀ c ∈ StatusCode.all, c.bits.toNat < 4 ∨ 8 ≤ c.bits.toNat := by decide
  table c c.mem_all

theorem ErrorKind.bits_getLsbD_three (k : ErrorKind) : k.bits.getLsbD 3 = true := by cases k <;> rfl

/-- "A code is an error exactly when its bit 3 is 1" (R23). -/
theorem StatusCode.bits_getLsbD_three_iff (c : StatusCode) : c.bits.getLsbD 3 = true ↔ ∃ k, c = .error k := by
  cases c with
  | error k => exact ⟨fun _ => ⟨k, rfl⟩, fun _ => k.bits_getLsbD_three⟩
  | _ => simp [StatusCode.bits]

/-- The decoder reports each of its errors by its own kind, never by `UnknownInstruction` (60_exceptions.md R82). -/
theorem kindOfDecodeError_ne_unknown (e : DecodeError) : kindOfDecodeError e ≠ .unknownInstruction := by
  cases e <;> decide

/-! Cursors. -/

/-- The move of `ti` in numbers (41_store_recall.md R72). -/
theorem recallCursor_val (hi ti : SlotIndex) :
    (recallCursor hi ti).val = if ti.val = 0 then (hi.val + 9) % 10 else ti.val - 1 := by
  split
  next h => rw [recallCursor_sentinel hi ti h, newestSlot_val]
  next h => exact recallCursor_back hi ti h

/-! The ALU instructions with general-purpose operands. -/

@[simp] theorem AluOp.isAlu_instr (op : AluOp) (a b : GpIndex) (ign : BitVec 10) :
    isAlu (op.instr a b ign) = true := by cases op <;> rfl

@[simp] theorem AluOp.wf_instr (op : AluOp) (a b : GpIndex) (ign : BitVec 10) :
    (op.instr a b ign).wf = true := by cases op <;> simp [AluOp.instr, Instr.wf]

/-- Each of the four instructions is the shared ALU step of its operation (40_alu.md R64). -/
theorem exec_instr_eq_alu (op : AluOp) (a b : GpIndex) (ign : BitVec 10) (s : State) :
    exec (op.instr a b ign) s = alu op a.field b.field s := by cases op <;> rfl

/-- A DIV by zero raises (R68, 60_exceptions.md R81). -/
theorem exec_instr_divByZero {op : AluOp} {b : GpIndex} {s : State} (h : op = .div ∧ s.reg b.val = 0) (a : GpIndex)
    (ign : BitVec 10) : exec (op.instr a b ign) s = .next (raiseError .divisionByZero s) := by
  rw [exec_instr_eq_alu, alu_field, if_pos h]

/-- Every other ALU instruction appends its result (R64). -/
theorem exec_instr_append {op : AluOp} {b : GpIndex} {s : State} (h : ¬(op = .div ∧ s.reg b.val = 0)) (a : GpIndex)
    (ign : BitVec 10) :
    exec (op.instr a b ign) s = .next (appendHistory (aluResult op (s.reg a.val) (s.reg b.val)) s) := by
  rw [exec_instr_eq_alu, alu_field, if_neg h]

/-- An append read back: the slot `hi` named, and every other as before (R64). -/
theorem hist_appendHistory (r : Word) (s : State) (j : SlotIndex) :
    (appendHistory r s).hist j = if j = s.hi then r else s.hist j :=
  hist_set s.hi j r s _ (appendHistory_h r s)

/-! Values (00_scope.md R9, 40_alu.md R63). -/

/-- The ALU's sum is the sum modulo `2^32` (R65). -/
theorem aluResult_add (va vb : Word) : aluResult .add va vb = va + vb := by
  simp [aluResult, wrap32, sint, BitVec.ofInt_add]

/-- Wrapping keeps every integer of the 32-bit signed range (R9). -/
theorem sint_wrap32 {n : Int} (hlo : -2 ^ 31 ≤ n) (hhi : n < 2 ^ 31) : sint (wrap32 n) = n := by
  rw [sint, wrap32, BitVec.toInt_ofInt]
  exact Int.bmod_eq_of_le (by omega) (by omega)

/-- A stored value is the immediate, unsigned (30_encoding.md R54). -/
theorem sint_zext32 (imm : BitVec 10) : sint (zext32 imm) = imm.toNat := by
  have hlt : 2 * (zext32 imm).toNat < 2 ^ 32 := by rw [zext32_toNat]; have := imm.isLt; omega
  rw [sint, BitVec.toInt_eq_toNat_of_lt hlt, zext32_toNat]

/-- Operands in R27's range give a result in R28's: nothing wraps, and the extremes are `0 - 1023` and `1023 * 1023`. -/
theorem aluResult_bounds (op : AluOp) {va vb : Word} (ha : 0 ≤ sint va ∧ sint va ≤ 1023)
    (hb : 0 ≤ sint vb ∧ sint vb ≤ 1023) :
    -1023 ≤ sint (aluResult op va vb) ∧ sint (aluResult op va vb) ≤ 1046529 := by
  obtain ⟨ha0, ha1⟩ := ha
  obtain ⟨hb0, hb1⟩ := hb
  cases op with
  | add => rw [aluResult, sint_wrap32] <;> omega
  | sub => rw [aluResult, sint_wrap32] <;> omega
  | mul =>
    have hlo : 0 ≤ sint va * sint vb := Int.mul_nonneg ha0 hb0
    have hhi : sint va * sint vb ≤ 1023 * 1023 := Int.mul_le_mul ha1 hb1 hb0 (by decide)
    rw [aluResult, sint_wrap32] <;> omega
  | div =>
    have hlo : 0 ≤ (sint va).tdiv (sint vb) := Int.tdiv_nonneg ha0 hb0
    have hhi : (sint va).tdiv (sint vb) ≤ sint va := Int.tdiv_le_self _ ha0
    rw [aluResult, quotTz, sint_wrap32] <;> omega

/-! The number register file. -/

/-- STORE as one update: its own register is never `x[0]`, so both guards of `writeReg` are decided (R12, R71). -/
theorem storeNext_eq (imm : BitVec 10) (s : State) : storeNext imm s =
    { s with x := s.x.set s.ni.val (zext32 imm), ni := s.ni.next, status := statusStore (zext32 imm) s.ni } := by
  rw [storeNext, writeReg_zero, writeReg, if_neg s.ni.ne_zero]; rfl

/-- The cells a STORE leaves, `x[0]` always among them. -/
theorem storeNext_x_ne (imm : BitVec 10) (s : State) {i : RegIndex} (h : i ≠ s.ni.val) :
    (storeNext imm s).x[i] = s.x[i] := by
  rw [storeNext_eq]
  exact Vector.getElem_set_ne s.ni.val.isLt i.isLt fun e => h (Fin.ext e.symm)

/-- The shared ALU step writes no number register, whether it appends or raises (R13). -/
theorem alu_x {op : AluOp} {a b : BitVec 5} {s t : State} (h : alu op a b s = .next t) : t.x = s.x := by
  obtain ⟨va, vb, -, -, ⟨-, -, rfl⟩ | ⟨-, rfl⟩⟩ := alu_next h <;> simp

/-- Only STORE writes the number register file (R13), of every instruction, well formed or not. -/
theorem exec_x {i : Instr} {s t : State} (h : exec i s = .next t) :
    t.x = s.x ∨ ∃ imm, i = .store imm ∧ t = storeNext imm s := by
  cases i with
  | add s1 s2 ign => exact .inl (alu_x (op := .add) h)
  | sub s1 s2 ign => exact .inl (alu_x (op := .sub) h)
  | mul s1 s2 ign => exact .inl (alu_x (op := .mul) h)
  | div s1 s2 ign => exact .inl (alu_x (op := .div) h)
  | store imm => cases h; exact .inr ⟨imm, rfl, rfl⟩
  | recallHistory ign => cases h; exact .inl (recallNext_x s)

/-- Every execution leaves every cell but that of `x[ni]` (R13). -/
theorem exec_x_ne {i : Instr} {s t : State} (h : exec i s = .next t) {r : RegIndex} (hr : r ≠ s.ni.val) :
    t.x[r] = s.x[r] := by
  obtain hx | ⟨imm, -, rfl⟩ := exec_x h
  · rw [hx]
  · exact storeNext_x_ne imm s hr

/-! One step on the computational state. -/

/-- Everything a step does to the computational state: nothing, with the status as it was or an error of the decoder or
of DIV; a reset; or, at an edge that presents an accepted candidate, the one effect of an ALU instruction that succeeds,
of a STORE or of a RECALL. -/
theorem step_effect {s t : State} (h : step s = .next t) :
    (s.SameComputational t ∧ (t.status = s.status ∨ ∃ k, k ≠ .unknownInstruction ∧ t.status = statusError k)) ∨
    (∃ p rest, s.inputs = p :: rest ∧ p.rst = true ∧ t = resetEdge { s with inputs := rest }) ∨
    (∃ p rest i, s.inputs = p :: rest ∧ p.rst = false ∧ p.candValid = true ∧
      decode (portCandidate s.params p) = .ok i ∧
      ((∃ op a b ign, i = AluOp.instr op a b ign ∧ ¬(op = .div ∧ s.reg b.val = 0) ∧
          t = appendHistory (aluResult op (s.reg a.val) (s.reg b.val)) { s with inputs := rest }) ∨
        (∃ imm, i = .store imm ∧ t = storeNext imm { s with inputs := rest }) ∨
        (∃ ign, i = .recallHistory ign ∧ t = recallNext { s with inputs := rest }))) := by
  obtain ⟨-, rfl⟩ | ⟨p, rest, hin, ⟨hr, rfl⟩ | ⟨-, -, rfl⟩ | ⟨-, -, e, -, rfl⟩ | ⟨hr, hv, i, hd, he⟩⟩ := step_next h
  case inl => exact .inl ⟨⟨rfl, rfl, rfl, rfl, rfl⟩, .inl rfl⟩
  case inr.inl => exact .inr (.inl ⟨p, rest, hin, hr, rfl⟩)
  case inr.inr.inl => exact .inl ⟨⟨rfl, rfl, rfl, rfl, rfl⟩, .inl rfl⟩
  case inr.inr.inr.inl =>
    exact .inl ⟨⟨rfl, rfl, rfl, rfl, rfl⟩, .inr ⟨_, kindOfDecodeError_ne_unknown e, rfl⟩⟩
  case inr.inr.inr.inr =>
    obtain ⟨-, -, -, -, -, rfl⟩ | happend | hstore | hrecall := exec_next (decode_ok_wf hd) he
    · exact .inl ⟨⟨rfl, rfl, rfl, rfl, rfl⟩, .inr ⟨.divisionByZero, by decide, rfl⟩⟩
    · exact .inr (.inr ⟨p, rest, i, hin, hr, hv, hd, .inl happend⟩)
    · exact .inr (.inr ⟨p, rest, i, hin, hr, hv, hd, .inr (.inl hstore)⟩)
    · exact .inr (.inr ⟨p, rest, i, hin, hr, hv, hd, .inr (.inr hrecall)⟩)

/-! Legal states. -/

theorem inResultRange_iff (v : Word) : inResultRange v = true ↔ -1023 ≤ sint v ∧ sint v ≤ 1046529 := by
  simp [inResultRange]

/-- The record of every error that is raised is legal (R23). -/
theorem statusError_legal {k : ErrorKind} (h : k ≠ .unknownInstruction) : (statusError k).legal = true := by
  simp [statusError, Status.legal, h]

/-- A state with a legal state's registers and history and with a legal status is legal. -/
theorem State.Legal.of_frame {s t : State} (hs : s.Legal) (hx : t.x = s.x) (hh : t.h = s.h)
    (hstatus : t.status.legal = true) : t.Legal where
  zeroReg := by simpa only [hx] using hs.zeroReg
  regs i := by simpa only [reg_congr hx] using hs.regs i
  hist j := by simpa only [hist_congr hh] using hs.hist j
  status := hstatus

theorem reset_legal : State.reset.Legal := ⟨by decide, by decide, by decide, by decide⟩

/-- Appending a value of R28's range keeps a state legal (R64). -/
theorem State.Legal.appendHistory {s : State} (hs : s.Legal) {r : Word} (hr : -1023 ≤ sint r ∧ sint r ≤ 1046529) :
    (appendHistory r s).Legal where
  zeroReg := hs.zeroReg
  regs := hs.regs
  hist j := by
    rw [hist_appendHistory]
    split
    · exact hr
    · exact hs.hist j
  status := by
    have := s.hi.isLt
    simp only [appendHistory_status, Status.legal, slotField_toNat, Bool.and_eq_true, decide_eq_true_eq]
    exact ⟨by omega, (inResultRange_iff r).mpr hr⟩

/-- A STORE keeps a state legal: it writes a 10-bit value, and not to `x[0]` (R71). -/
theorem State.Legal.storeNext {s : State} (hs : s.Legal) (imm : BitVec 10) : (storeNext imm s).Legal where
  zeroReg := (storeNext_x_ne imm s s.ni.ne_zero.symm).trans hs.zeroReg
  regs i := by
    by_cases hi : i = s.ni.val
    · have := imm.isLt
      rw [hi, storeNext_reg_ni, sint_zext32]
      omega
    · rw [storeNext_reg_ne imm s i hi]
      exact hs.regs i
  hist j := by simpa only [hist_congr (storeNext_h imm s)] using hs.hist j
  status := by
    have := s.ni.isGp; have := s.ni.val.isLt; have := imm.isLt
    simp only [storeNext_status, Status.legal, GpIndex.field_toNat, zext32_toNat, Bool.and_eq_true, decide_eq_true_eq]
    omega

/-- A RECALL keeps a state legal: it reports a history register (R72). -/
theorem State.Legal.recallNext {s : State} (hs : s.Legal) : (recallNext s).Legal :=
  hs.of_frame rfl rfl <| by
    have := (recallCursor s.hi s.ti).isLt
    simp only [recallNext_status, Status.legal, slotField_toNat, Bool.and_eq_true, decide_eq_true_eq]
    exact ⟨by omega, (inResultRange_iff _).mpr (hs.hist _)⟩

/-! Runs. -/

/-- A run of one more step that answers a next state: its first step, then the rest. -/
theorem runFor_succ_next {n : Nat} {s u : State} (h : s.runFor (n + 1) = .next u) :
    ∃ t, step s = .next t ∧ t.runFor n = .next u := by
  simp only [State.runFor, Host.Core.run] at h
  split at h
  next t hs => exact ⟨t, hs, h⟩
  next => cases h
  next => cases h

/-- What every step keeps, every run keeps. -/
theorem runFor_keeps {P : State → Prop} (hstep : ∀ s t, P s → step s = .next t → P t) (n : Nat) {s t : State}
    (hs : P s) (h : s.runFor n = .next t) : P t := by
  induction n generalizing s with
  | zero => cases h; exact hs
  | succ n ih =>
    obtain ⟨u, hu, hrest⟩ := runFor_succ_next h
    exact ih (hstep s u hs hu) hrest

/-- What holds at reset of every block and is kept by every step holds of every reachable state (R21). -/
theorem State.Reachable.of_invariant {P : State → Prop} (hreset : ∀ params pins, P (State.resetWith params pins))
    (hstep : ∀ s t, P s → step s = .next t → P t) {s : State} (hs : s.Reachable) : P s := by
  obtain ⟨params, pins, n, hrun⟩ := hs
  exact runFor_keeps hstep n (hreset params pins) hrun

@[simp] theorem hist_withInstrs (is : List Instr) (s : State) (j : SlotIndex) : (s.withInstrs is).hist j = s.hist j := rfl

/-- The line-up neither changes the shared ALU step nor is changed by it. -/
theorem alu_withInstrs {op : AluOp} {a b : BitVec 5} {s t : State} (h : alu op a b s = .next t) (is : List Instr) :
    alu op a b (s.withInstrs is) = .next (t.withInstrs is) := by
  obtain ⟨va, vb, ha, hb, heffect⟩ := alu_next h
  have ha' : readOperand a (s.withInstrs is) = some va := ha
  have hb' : readOperand b (s.withInstrs is) = some vb := hb
  simp only [alu, ha', hb']
  obtain ⟨hop, hz, rfl⟩ | ⟨hne, rfl⟩ := heffect
  · rw [if_pos ⟨hop, hz⟩]; rfl
  · rw [if_neg hne]; rfl

/-- The line-up neither changes an execution nor is changed by it (30_encoding.md R40; log entry 1). -/
theorem exec_withInstrs {i : Instr} {s t : State} (h : exec i s = .next t) (is : List Instr) :
    exec i (s.withInstrs is) = .next (t.withInstrs is) := by
  cases i with
  | add s1 s2 ign => exact alu_withInstrs (op := .add) h is
  | sub s1 s2 ign => exact alu_withInstrs (op := .sub) h is
  | mul s1 s2 ign => exact alu_withInstrs (op := .mul) h is
  | div s1 s2 ign => exact alu_withInstrs (op := .div) h is
  | store imm => cases h; simp only [exec, execStore, storeNext_eq]; rfl
  | recallHistory ign => cases h; rfl

/-- A step on a presented instruction executes it (R43, R55, R61). -/
theorem step_presentInstr {s : State} {i : Instr} {rest : List Pins} (hw : i.wf = true)
    (h : s.inputs = presentInstr i :: rest) : step s = exec i { s with inputs := rest } := by
  rw [step_presentWord h, transaction, decode_encode i hw]

/-- Instructions presented one per edge execute one after the other (70_reset_and_hazards.md R99). -/
theorem runInstrs_cons {i : Instr} {s t : State} (hw : i.wf = true) (h : exec i s = .next t) (is : List Instr) :
    s.runInstrs (i :: is) = t.runInstrs is :=
  have hstep : step (s.withInstrs (i :: is)) = .next (t.withInstrs is) :=
    (step_presentInstr hw rfl).trans (exec_withInstrs h is)
  runFor_succ hstep

/-- One ADD at the head of a list of presented instructions appends its sum, and the rest runs from there (R65, R99). -/
theorem runInstrs_add_cons (s : State) (a b : GpIndex) (is : List Instr) :
    s.runInstrs (.add a.field b.field 0 :: is) = (appendHistory (s.reg a.val + s.reg b.val) s).runInstrs is := by
  have hne : ¬(AluOp.add = .div ∧ s.reg b.val = 0) := fun h => nomatch h.1
  rw [← aluResult_add]
  exact runInstrs_cons (AluOp.wf_instr .add a b 0) (exec_instr_append hne a 0) is

end Sys2Proof.Machine
end

section
/-! PROOFS. The statements about the block's state (10_state.md). -/

namespace Sys2Proof.Machine

/-- Settles O48: by the cases of a step. Nothing, an error and a RECALL leave registers and history; the reset state is
legal; an ALU instruction appends a result of two bounded operands; a STORE writes a 10-bit value. -/
theorem stepKeepsLegalStates : Obligations.StepKeepsLegalStates := by
  intro s t hs h
  obtain ⟨⟨hx, hh, -, -, -⟩, hstatus⟩ | ⟨p, rest, -, -, rfl⟩ | ⟨p, rest, i, -, -, -, -, heffect⟩ := step_effect h
  · refine hs.of_frame hx hh ?_
    obtain hsame | ⟨k, hk, herror⟩ := hstatus
    · rw [hsame]; exact hs.status
    · rw [herror]; exact statusError_legal hk
  · exact reset_legal.of_frame rfl rfl reset_legal.status
  · have hs' : ({ s with inputs := rest } : State).Legal := hs.of_frame rfl rfl hs.status
    obtain ⟨op, a, b, ign, -, -, rfl⟩ | ⟨imm, -, rfl⟩ | ⟨ign, -, rfl⟩ := heffect
    · exact hs'.appendHistory (aluResult_bounds op (hs.regs a.val) (hs.regs b.val))
    · exact hs'.storeNext imm
    · exact hs'.recallNext

/-- Settles O50: legality holds at reset of every block, every step keeps it, and it holds the two ranges. -/
theorem reachableValuesAreBounded : Obligations.ReachableValuesAreBounded := by
  intro s hs
  have hlegal : s.Legal := hs.of_invariant
    (fun params pins => reset_legal.of_frame rfl rfl reset_legal.status) stepKeepsLegalStates
  exact ⟨hlegal.regs, hlegal.hist⟩

/-- Settles O35: the file changes by a STORE alone, in the cell of `x[ni]`. -/
theorem onlyStoreWritesNumberRegisters : Obligations.OnlyStoreWritesNumberRegisters := by
  intro i s t h
  refine ⟨fun hne => ?_, fun r hr => exec_x_ne h hr, ?_, ?_⟩
  · obtain hx | ⟨imm, hi, -⟩ := exec_x h
    · exact hx
    · exact absurd hi (hne imm)
  · have := s.ni.isGp; omega
  · have := s.ni.val.isLt; omega

/-- Settles O36: RECALL and STORE compute from other elements, and the ALU's operands read the same in both files. -/
theorem onlyTheAluReadsNumberRegisters : Obligations.OnlyTheAluReadsNumberRegisters := by
  refine ⟨fun s x' ign => ⟨_, rfl, rfl⟩, fun s x' imm => ⟨_, _, rfl, rfl, ?_, ?_⟩, fun s x' op a b ign ha hb => ?_⟩
  · simp only [storeNext_eq]
  · exact (storeNext_reg_ni imm { s with x := x' }).trans (storeNext_reg_ni imm s).symm
  · have hra : ({ s with x := x' } : State).reg a.val = s.reg a.val := by simp only [State.reg, ha]
    have hrb : ({ s with x := x' } : State).reg b.val = s.reg b.val := by simp only [State.reg, hb]
    by_cases hz : op = .div ∧ s.reg b.val = 0
    · exact ⟨_, exec_instr_divByZero hz a ign, exec_instr_divByZero (hrb ▸ hz) a ign⟩
    · refine ⟨_, exec_instr_append hz a ign, ?_⟩
      rw [exec_instr_append (hrb.symm ▸ hz), hra, hrb]
      rfl

/-- Settles O37: the range is the cursor's type, and of a step's effects only the reset and STORE name `ni`. -/
theorem numbersIndexMovesOnlyByStore : Obligations.NumbersIndexMovesOnlyByStore := by
  refine ⟨rfl, fun s => ⟨s.ni.isGp, ?_⟩, fun imm s => ⟨_, rfl, ?_, ?_⟩, fun s t h => ?_⟩
  · have := s.ni.val.isLt; omega
  · rw [storeNext_reg_ni, zext32_toNat]
  · rw [storeNext_ni, GpIndex.next_val]
  · obtain ⟨⟨-, -, hni, -, -⟩, -⟩ | ⟨p, rest, hin, hr, rfl⟩ | ⟨p, rest, i, hin, hr, hv, hd, heffect⟩ := step_effect h
    · exact .inl hni
    · exact .inr (.inl ⟨p, rest, hin, hr, rfl⟩)
    · obtain ⟨op, a, b, ign, -, -, rfl⟩ | ⟨imm, rfl, rfl⟩ | ⟨ign, -, rfl⟩ := heffect
      · exact .inl rfl
      · exact .inr (.inr ⟨p, rest, imm, hin, hr, hv, hd, by rw [storeNext_ni, GpIndex.next_val]⟩)
      · exact .inl rfl

/-- Settles O40: the range is the cursor's type, and of a step's effects only the reset and the append name `hi`. -/
theorem historyIndexMovesOnlyByAluSuccess : Obligations.HistoryIndexMovesOnlyByAluSuccess := by
  refine ⟨rfl, fun s => Nat.lt_succ_iff.mp s.hi.isLt, fun op a b ign s => ?_, fun s t h => ?_⟩
  · by_cases hz : op = .div ∧ s.reg b.val = 0
    · exact ⟨_, exec_instr_divByZero hz a ign, fun hne => absurd hz hne, fun _ _ => ⟨rfl, rfl⟩⟩
    · refine ⟨_, exec_instr_append hz a ign, fun _ => ⟨?_, rfl⟩, fun hop h0 => absurd ⟨hop, h0⟩ hz⟩
      simp [hist_appendHistory]
  · obtain ⟨⟨-, -, -, hhi, -⟩, -⟩ | ⟨p, rest, hin, hr, rfl⟩ | ⟨p, rest, i, hin, hr, hv, hd, heffect⟩ := step_effect h
    · exact .inl hhi
    · exact .inr (.inl ⟨p, rest, hin, hr, rfl⟩)
    · obtain ⟨op, a, b, ign, rfl, -, rfl⟩ | ⟨imm, -, rfl⟩ | ⟨ign, -, rfl⟩ := heffect
      · exact .inr (.inr ⟨p, rest, _, hin, hr, hv, hd, op.isAlu_instr a b ign, rfl, rfl⟩)
      · exact .inl (storeNext_hi imm _)
      · exact .inl rfl

/-- Settles O41: of a step's effects only the reset and RECALL name `ti`. -/
theorem recallCursorMovesOnlyByRecall : Obligations.RecallCursorMovesOnlyByRecall := by
  refine ⟨rfl, fun s t h => ?_⟩
  obtain ⟨⟨-, -, -, -, hti⟩, -⟩ | ⟨p, rest, hin, hr, rfl⟩ | ⟨p, rest, i, hin, hr, hv, hd, heffect⟩ := step_effect h
  · exact .inl hti
  · exact .inr (.inl ⟨p, rest, hin, hr, rfl⟩)
  · obtain ⟨op, a, b, ign, -, -, rfl⟩ | ⟨imm, -, rfl⟩ | ⟨ign, rfl, rfl⟩ := heffect
    · exact .inl rfl
    · exact .inl (storeNext_ti imm _)
    · exact .inr (.inr ⟨p, rest, ign, hin, hr, hv, hd, recallCursor_val s.hi s.ti⟩)

/-- Settles O47: by induction on the ADDs before the last, from every state. The first one advances `hi` by one and
leaves every slot but the one `hi` named, so a slot further ahead than the rest reach is one the first leaves too. -/
theorem historyRingWrapsModuloTen : Obligations.HistoryRingWrapsModuloTen := by
  intro s ops a b
  induction ops generalizing s with
  | nil =>
    refine ⟨_, runInstrs_add_cons s a b [], ?_, ?_, ?_, fun j hj => ?_, rfl, rfl, rfl⟩
    · rfl
    · simp [Nat.mod_eq_of_lt s.hi.isLt]
    · simp [hist_appendHistory]
    · have hne : j ≠ s.hi := by rintro rfl; simp at hj
      exact (hist_appendHistory _ s j).trans (if_neg hne)
  | cons q ops ih =>
    obtain ⟨t, hrun, hhi, hindex, hlast, hslots, hframe⟩ := ih (appendHistory (s.reg q.1.val + s.reg q.2.val) s)
    simp only [appendHistory_hi, nextSlot_val] at hhi hindex hslots
    refine ⟨t, (runInstrs_add_cons s q.1 q.2 _).trans hrun, ?_, ?_, hlast, fun j hj => ?_, hframe⟩
    · simp only [List.length_cons]; omega
    · simp only [List.length_cons]; omega
    · rw [List.length_cons] at hj
      have hne : j ≠ s.hi := by rintro rfl; simp at hj
      have := s.hi.isLt; have := j.isLt
      rw [hslots j (by omega), hist_appendHistory, if_neg hne]

/-- Settles O18: the table's rows by evaluation, then the three rules over all twelve names. -/
theorem statusCodesAreTheTable : Obligations.StatusCodesAreTheTable :=
  ⟨rfl, rfl, rfl, rfl, rfl, rfl, rfl, rfl, rfl, rfl, rfl, rfl, fun _ _ => StatusCode.bits_injective,
    StatusCode.bits_not_reserved, StatusCode.bits_getLsbD_three_iff⟩

/-- Settles O33: reads and writes of `x[0]` by definition, its cell because `ni` never names it. -/
theorem zeroRegisterIsHardwired : Obligations.ZeroRegisterIsHardwired := fun s =>
  ⟨reg_zero s, fun v => writeReg_zero v s, fun _ t h => ⟨reg_zero t, exec_x_ne h s.ni.ne_zero.symm⟩⟩

end Sys2Proof.Machine
end

section
/-! SUPPORT. The rules about one transaction (30_encoding.md R61): its two outcomes by the decoder's answer, the append in
the statements' terms, and operand fields that name nothing (20_memory.md R32). -/

namespace Sys2Proof.Machine

/-! The decoder's answer decides the transaction. -/

/-- A rejected candidate raises its error (R61, 60_exceptions.md R80). -/
theorem transaction_error {c : Candidate} {e : DecodeError} (h : decode c = .error e) (s : State) :
    transaction c s = .next (raiseError (kindOfDecodeError e) s) := by simp only [transaction, h]

/-- An accepted candidate is executed (R61). -/
theorem transaction_ok {c : Candidate} {i : Instr} (h : decode c = .ok i) (s : State) : transaction c s = exec i s := by
  simp only [transaction, h]

/-! Effects. -/

/-- Raising the same error again changes nothing (R80). -/
@[simp] theorem raiseError_raiseError (k : ErrorKind) (s : State) : raiseError k (raiseError k s) = raiseError k s := rfl

/-- Raising an error leaves the computational state (R80). -/
theorem sameComputational_raiseError (k : ErrorKind) (s : State) : s.SameComputational (raiseError k s) :=
  ⟨raiseError_x k s, raiseError_h k s, raiseError_ni k s, raiseError_hi k s, raiseError_ti k s⟩

/-- The append operation has exactly the effect of a history append (40_alu.md R64). -/
theorem appended_appendHistory (r : Word) (s : State) : s.Appended r (appendHistory r s) := by
  refine ⟨?_, fun j hj => ?_, rfl, rfl, slotField_toNat s.hi, nextSlot_val s.hi, rfl, rfl, rfl, rfl⟩
  · rw [hist_appendHistory, if_pos rfl]
  · rw [hist_appendHistory, if_neg hj]

/-! Operand fields that name no register. -/

/-- The ALU stops on an operand field of 22 to 31, whatever the operation (log entry 9). -/
theorem alu_unnamed (op : AluOp) {a b : BitVec 5} (s : State) (h : 22 ≤ a.toNat ∨ 22 ≤ b.toNat) :
    alu op a b s = .fault .noSuchRegister := by
  obtain ha | hb := h
  · simp only [alu, readOperand_none a s ha]
  · simp only [alu, readOperand_none b s hb]
    cases readOperand a s <;> rfl

/-- A field of 22 to 31 is not a register field the decoder accepts (30_encoding.md R49). -/
theorem isGpField_eq_false {r : BitVec 5} (h : 22 ≤ r.toNat) : isGpField r = false := by
  simp only [isGpField, Bool.and_eq_false_iff, decide_eq_false_iff_not]
  omega

/-- The decoder produces no ill-formed instruction (R55). -/
theorem decode_ne_ok (i : Instr) (h : i.wf = false) (c : Candidate) : decode c ≠ .ok i := fun hd =>
  Bool.false_ne_true (h.symm.trans (decode_ok_wf hd))

end Sys2Proof.Machine
end

section
/-! PROOFS. The statements about the block's storage and its transactions (20_memory.md). -/

namespace Sys2Proof.Machine

/-- Settles O23: a rejected candidate and a DIV by zero raise an error, a successful ALU instruction appends, a STORE
writes `x[ni]`, and a RECALL moves `ti`; nothing else can happen. -/
theorem transactionIsOneCompleteMutation : Obligations.TransactionIsOneCompleteMutation := by
  intro s t c h
  cases hd : decode c with
  | error e =>
    cases (transaction_error hd s).symm.trans h
    exact .inl (sameComputational_raiseError _ s)
  | ok i =>
    obtain ⟨a, b, ign, -, -, rfl⟩ | ⟨op, a, b, ign, -, -, rfl⟩ | ⟨imm, -, rfl⟩ | ⟨ign, -, rfl⟩ :=
      exec_next (decode_ok_wf hd) ((transaction_ok hd s).symm.trans h)
    · exact .inl (sameComputational_raiseError _ s)
    · exact .inr (.inr (.inl (appended_appendHistory _ s)))
    · refine .inr (.inl ⟨storeNext_h imm s, storeNext_hi imm s, storeNext_ti imm s, ?_, fun _ => storeNext_x_ne imm s,
        storeNext_reg_ni imm s⟩)
      rw [storeNext_ni, GpIndex.next_val]
    · exact .inr (.inr (.inr ⟨rfl, rfl, rfl, rfl, rfl⟩))

/-- Settles O22: the candidate is rejected from every state, with the same error each time. -/
theorem rejectedCandidateIsIdempotent : Obligations.RejectedCandidateIsIdempotent := by
  intro s t c e hd h
  cases (transaction_error hd s).symm.trans h
  rw [transaction_error hd, raiseError_raiseError]

/-- Settles O24: the operand cannot be read, and the instruction is ill-formed, which the decoder's never are. -/
theorem unnamedRegisterStopsByName : Obligations.UnnamedRegisterStopsByName := by
  intro a b ign s h
  have hfields : (isGpField a && isGpField b) = false :=
    Bool.and_eq_false_iff.mpr (h.imp isGpField_eq_false isGpField_eq_false)
  exact ⟨alu_unnamed .add s h, alu_unnamed .sub s h, alu_unnamed .mul s h, alu_unnamed .div s h, fun c =>
    ⟨decode_ne_ok (.add a b ign) hfields c, decode_ne_ok (.sub a b ign) hfields c,
      decode_ne_ok (.mul a b ign) hfields c, decode_ne_ok (.div a b ign) hfields c⟩⟩

end Sys2Proof.Machine
end

section
/-! SUPPORT. The encoding in the statements' terms (30_encoding.md): the reader as a sum, a word and its five fields, the
rows of the opcode map as fields, one equation per outcome of the decoder, the ignored store field, and the forms an
instruction and an execution can have. -/

namespace Sys2Proof

/-! The bit-field reader. -/

/-- The reader's value is the characters' bits weighted by powers of two: each further character doubles the weights of
those before it (R44). -/
theorem field_eq_sum (c : List Char8) (start len : Nat) : field c start len =
    ∑ k ∈ Finset.range len, bitOfChar (c.getD (start + k) charZero) * 2 ^ (len - 1 - k) := by
  induction len with
  | zero => rfl
  | succ n ih =>
    rw [field, ih, Finset.sum_range_succ, Finset.mul_sum, Nat.add_sub_cancel, Nat.sub_self, Nat.pow_zero, Nat.mul_one]
    congr 1
    refine Finset.sum_congr rfl fun k hk => ?_
    have hexp : n - k = n - 1 - k + 1 := by have := Finset.mem_range.mp hk; omega
    rw [hexp, Nat.pow_succ', Nat.mul_left_comm]

/-! Words and strings. -/

/-- The word a string of `'0'` and `'1'` packs to: bit `31 - p` is position `p` (R43). -/
def wordOfChars (chr : Vector Char8 32) : Word := BitVec.ofFnLE fun k : Fin 32 => chr[31 - k.val] == charOne

/-- Packing a string of `'0'` and `'1'` loses nothing (R43). -/
theorem charsOfWord_wordOfChars {chr : Vector Char8 32} (h : ∀ p : Fin 32, chr[p] = charZero ∨ chr[p] = charOne) :
    charsOfWord (wordOfChars chr) = chr := by
  ext1 p hp
  have hbit : (wordOfChars chr).getLsbD (31 - p) = (chr[p] == charOne) := by
    have hk : 31 - p < 32 := by omega
    have hpos : 31 - (31 - p) = p := by omega
    simp only [wordOfChars, BitVec.getLsbD_ofFnLE, hk, hpos, dif_pos]
  rw [charsOfWord_get _ p hp, hbit]
  obtain h0 | h1 : chr[p] = charZero ∨ chr[p] = charOne := h ⟨p, hp⟩
  · rw [h0]; decide
  · rw [h1]; decide

theorem isBitChar_eq_false_iff (c : Char8) : isBitChar c = false ↔ c ≠ charZero ∧ c ≠ charOne := by
  simp [isBitChar]

/-- R46: one character other than `'0'` and `'1'`, wherever it stands, is reported. -/
theorem decodeChars_invalidCharacters {c : List Char8} {d : Char8} (hmem : d ∈ c) (hd : isBitChar d = false) :
    decodeChars Config.ilen c = .error .invalidCharacters := by
  have hall : c.all isBitChar = false := List.all_eq_false.mpr ⟨d, hmem, by simp [hd]⟩
  simp [decodeChars, hall]

/-! A word and its five fields. -/

/-- The five slices of a word in R42's table. -/
def fieldsOfWord (w : Word) : Fields :=
  ⟨w.extractLsb' 26 6, w.extractLsb' 21 5, w.extractLsb' 16 5, w.extractLsb' 6 10, w.extractLsb' 0 6⟩

/-- A word decodes as its slices do (R43, R47). -/
theorem decode_word_eq (w : Word) : decode (.word w) = decodeFields (fieldsOfWord w) := by
  rw [decode_word, extractFields_charsOfWord, fieldsOfWord]

@[simp] theorem fieldsOfWord_word (f : Fields) : fieldsOfWord f.word = f :=
  (extractFields_charsOfWord f.word).symm.trans (extractFields_word f)

/-- The five slices cover the word: every bit lies in one of them (R42). -/
@[simp] theorem word_fieldsOfWord (w : Word) : (fieldsOfWord w).word = w := by
  apply BitVec.eq_of_getLsbD_eq
  intro k hk
  interval_cases k <;> simp [fieldsOfWord, Fields.word]

theorem Fields.word_inj {f g : Fields} : f.word = g.word ↔ f = g :=
  ⟨fun h => by rw [← fieldsOfWord_word f, h, fieldsOfWord_word], congrArg _⟩

/-- The accepted words are the encodings of the well-formed instructions (R55). -/
theorem decode_word_ok_iff {w : Word} {i : Instr} : decode (.word w) = .ok i ↔ i.wf = true ∧ encode i = w := by
  constructor
  · intro h
    obtain ⟨hw, hf⟩ := decodeFields_ok ((decode_word_eq w).symm.trans h)
    exact ⟨hw, by rw [encode, hf, word_fieldsOfWord]⟩
  · rintro ⟨hw, rfl⟩
    exact decode_encode i hw

/-! The rows of the opcode map, by the fields their masks keep (R56). -/

/-- The ALU rows' mask keeps the opcode and the function code. -/
theorem word_and_aluRowMask (f : Fields) : f.word &&& 0xFC00003F = Fields.word ⟨f.opcode, 0, 0, 0, f.fc⟩ := by
  apply BitVec.eq_of_getLsbD_eq
  intro k hk
  interval_cases k <;> simp [Fields.word]

/-- The mask of the STORE and RECALL rows drops the store field alone. -/
theorem word_and_ringRowMask (f : Fields) : f.word &&& 0xFFFF003F = { f with store := 0 }.word := by
  apply BitVec.eq_of_getLsbD_eq
  intro k hk
  interval_cases k <;> simp [Fields.word]

/-- What an ALU row accepts: its function code, and two legal register fields (R49). -/
theorem aluRow_accepts_word (fc : BitVec 6) (f : Fields) :
    OpcodeRow.accepts ⟨Fields.word ⟨0, 0, 0, 0, fc⟩, 0xFC00003F, true⟩ f.word = true ↔
      (f.opcode = 0 ∧ f.fc = fc) ∧ (isGpField f.s1 && isGpField f.s2) = true := by
  have hs1 : f.word.extractLsb' 21 5 = f.s1 := congrArg Fields.s1 (fieldsOfWord_word f)
  have hs2 : f.word.extractLsb' 16 5 = f.s2 := congrArg Fields.s2 (fieldsOfWord_word f)
  simp only [OpcodeRow.accepts, word_and_aluRowMask, hs1, hs2, Bool.and_eq_true, beq_iff_eq, Fields.word_inj,
    Fields.mk.injEq, Bool.not_true, Bool.false_or, true_and]

/-- What the STORE and RECALL rows accept: their opcode, and every field but the store field 0 (R50, R51). -/
theorem ringRow_accepts_word (op : BitVec 6) (f : Fields) :
    OpcodeRow.accepts ⟨Fields.word ⟨op, 0, 0, 0, 0⟩, 0xFFFF003F, false⟩ f.word = true ↔
      f.opcode = op ∧ f.s1 = 0 ∧ f.s2 = 0 ∧ f.fc = 0 := by
  simp only [OpcodeRow.accepts, word_and_ringRowMask, Bool.not_false, Bool.true_or, Bool.and_true, beq_iff_eq,
    Fields.word_inj, Fields.mk.injEq, true_and]

theorem Instr.row_mem (i : Instr) : i.row ∈ opcodeTable := by cases i <;> simp [Instr.row, opcodeTable]

/-- An instruction's own row accepts its word. -/
theorem Instr.row_accepts_encode (i : Instr) (h : i.wf = true) : i.row.accepts (encode i) = true := by
  cases i with
  | add s1 s2 ign => exact (aluRow_accepts_word 32 _).mpr ⟨⟨rfl, rfl⟩, h⟩
  | sub s1 s2 ign => exact (aluRow_accepts_word 34 _).mpr ⟨⟨rfl, rfl⟩, h⟩
  | mul s1 s2 ign => exact (aluRow_accepts_word 24 _).mpr ⟨⟨rfl, rfl⟩, h⟩
  | div s1 s2 ign => exact (aluRow_accepts_word 26 _).mpr ⟨⟨rfl, rfl⟩, h⟩
  | store imm => exact (ringRow_accepts_word 1 _).mpr ⟨rfl, rfl, rfl, rfl⟩
  | recallHistory ign => exact (ringRow_accepts_word 33 _).mpr ⟨rfl, rfl, rfl, rfl⟩

/-- Fields whose word a row accepts are those of a well-formed instruction of that row. -/
theorem exists_instr_of_row_accepts {r : OpcodeRow} (hr : r ∈ opcodeTable) {f : Fields} (h : r.accepts f.word = true) :
    ∃ i : Instr, i.wf = true ∧ i.fields = f ∧ i.row = r := by
  obtain ⟨op, s1, s2, st, fc⟩ := f
  simp only [opcodeTable, List.mem_cons, List.not_mem_nil, or_false] at hr
  obtain rfl | rfl | rfl | rfl | rfl | rfl := hr
  · obtain ⟨⟨rfl, rfl⟩, hgp⟩ := (aluRow_accepts_word 32 _).mp h
    exact ⟨.add s1 s2 st, hgp, rfl, rfl⟩
  · obtain ⟨⟨rfl, rfl⟩, hgp⟩ := (aluRow_accepts_word 34 _).mp h
    exact ⟨.sub s1 s2 st, hgp, rfl, rfl⟩
  · obtain ⟨⟨rfl, rfl⟩, hgp⟩ := (aluRow_accepts_word 24 _).mp h
    exact ⟨.mul s1 s2 st, hgp, rfl, rfl⟩
  · obtain ⟨⟨rfl, rfl⟩, hgp⟩ := (aluRow_accepts_word 26 _).mp h
    exact ⟨.div s1 s2 st, hgp, rfl, rfl⟩
  · obtain ⟨rfl, rfl, rfl, rfl⟩ := (ringRow_accepts_word 1 _).mp h
    exact ⟨.store st, rfl, rfl, rfl⟩
  · obtain ⟨rfl, rfl, rfl, rfl⟩ := (ringRow_accepts_word 33 _).mp h
    exact ⟨.recallHistory st, rfl, rfl, rfl⟩

/-- A row of the map accepts a word exactly when the word decodes to an instruction of that row (R56). -/
theorem row_accepts_iff {r : OpcodeRow} (hr : r ∈ opcodeTable) (w : Word) :
    r.accepts w = true ↔ ∃ i, decode (.word w) = .ok i ∧ i.row = r := by
  constructor
  · intro h
    rw [← word_fieldsOfWord w] at h
    obtain ⟨i, hw, hf, hrow⟩ := exists_instr_of_row_accepts hr h
    exact ⟨i, decode_word_ok_iff.mpr ⟨hw, by rw [encode, hf, word_fieldsOfWord]⟩, hrow⟩
  · rintro ⟨i, hd, rfl⟩
    obtain ⟨hw, rfl⟩ := decode_word_ok_iff.mp hd
    exact i.row_accepts_encode hw

/-! The outcomes of steps 4 to 6, one equation each. -/

theorem isAluFunction_iff (fc : BitVec 6) :
    isAluFunction fc = true ↔ fc.toNat = 32 ∨ fc.toNat = 34 ∨ fc.toNat = 24 ∨ fc.toNat = 26 := by
  simp [isAluFunction, BitVec.toNat_eq, or_assoc]

section outcomes
variable {f : Fields}

/-- R48. -/
theorem decodeFields_invalidFunctionCode (hop : f.opcode = 0) (hfc : isAluFunction f.fc = false) :
    decodeFields f = .error .invalidFunctionCode := by
  simp [decodeFields, hop, hfc]

/-- R49. -/
theorem decodeFields_aluRegister (hop : f.opcode = 0) (hfc : isAluFunction f.fc = true)
    (hgp : (isGpField f.s1 && isGpField f.s2) = false) : decodeFields f = .error .invalidRegisterIndex := by
  simp only [decodeFields, hop, hfc, hgp, Bool.not_true, Bool.not_false, Bool.false_eq_true, if_true, if_false]

/-- R55: the accepted ALU fields. -/
theorem decodeFields_alu (hop : f.opcode = 0) (hfc : isAluFunction f.fc = true)
    (hgp : (isGpField f.s1 && isGpField f.s2) = true) :
    decodeFields f = .ok (aluInstr f.fc f.s1 f.s2 f.store) := by
  simp only [decodeFields, hop, hfc, hgp, Bool.not_true, Bool.false_eq_true, if_true, if_false]

/-- R50. -/
theorem decodeFields_invalidCombo (hop : f.opcode = 1 ∨ f.opcode = 33) (hfc : f.fc ≠ 0) :
    decodeFields f = .error .invalidOpcodeFunctionCombo := by
  have h0 : f.opcode ≠ 0 := by rintro h; simp [h] at hop
  simp only [decodeFields, h0, hop, hfc, ne_eq, not_false_eq_true, if_true, if_false]

/-- R51. -/
theorem decodeFields_ringRegister (hop : f.opcode = 1 ∨ f.opcode = 33) (hfc : f.fc = 0) (hs : f.s1 ≠ 0 ∨ f.s2 ≠ 0) :
    decodeFields f = .error .invalidRegisterIndex := by
  have h0 : f.opcode ≠ 0 := by rintro h; simp [h] at hop
  simp only [decodeFields, h0, hop, hfc, hs, ne_eq, not_true_eq_false, if_true, if_false]

/-- R52. -/
theorem decodeFields_invalidOpcode (h0 : f.opcode ≠ 0) (h1 : f.opcode ≠ 1) (h33 : f.opcode ≠ 33) :
    decodeFields f = .error .invalidOpcode := by
  simp only [decodeFields, h0, h1, h33, or_self, if_false]

/-- The length and the characters are not what steps 4 to 6 reject (R45, R46). -/
theorem decodeFields_ne_form : decodeFields f ≠ .error .invalidLength ∧ decodeFields f ≠ .error .invalidCharacters := by
  unfold decodeFields
  split_ifs <;> exact ⟨nofun, nofun⟩

end outcomes

/-- A word is never rejected for its length or its characters (R43). -/
theorem decode_word_ne_form (w : Word) :
    decode (.word w) ≠ .error .invalidLength ∧ decode (.word w) ≠ .error .invalidCharacters := by
  rw [decode_word_eq]
  exact decodeFields_ne_form

theorem isAlu_aluInstr (fc : BitVec 6) (s1 s2 : BitVec 5) (ign : BitVec 10) :
    Machine.isAlu (aluInstr fc s1 s2 ign) = true := by
  unfold aluInstr
  split_ifs <;> rfl

/-! The store field. -/

/-- The instruction with another store field (R42). -/
def Instr.withStore (st : BitVec 10) : Instr → Instr
  | .add s1 s2 _ => .add s1 s2 st
  | .sub s1 s2 _ => .sub s1 s2 st
  | .mul s1 s2 _ => .mul s1 s2 st
  | .div s1 s2 _ => .div s1 s2 st
  | .store _ => .store st
  | .recallHistory _ => .recallHistory st

theorem withStore_aluInstr (fc : BitVec 6) (s1 s2 : BitVec 5) (ign st : BitVec 10) :
    (aluInstr fc s1 s2 ign).withStore st = aluInstr fc s1 s2 st := by
  unfold aluInstr
  split_ifs <;> rfl

/-- The decoder never validates the store field: it takes it over into what it accepts, and rejects the same with every
other (R53). -/
theorem decodeFields_withStore (f : Fields) (st : BitVec 10) :
    decodeFields { f with store := st } = (decodeFields f).map (Instr.withStore st) := by
  simp only [decodeFields]
  split_ifs
  · rfl
  · rfl
  · exact congrArg Except.ok (withStore_aluInstr ..).symm
  · rfl
  · rfl
  · rfl
  · rfl
  · rfl

/-- Words that agree outside bits 15:6 decode alike up to the store field (R53). -/
theorem decode_word_withStore {w w' : Word} (h : w &&& 0xFFFF003F = w' &&& 0xFFFF003F) :
    decode (.word w') = (decode (.word w)).map (Instr.withStore (fieldsOfWord w').store) := by
  rw [← word_fieldsOfWord w, ← word_fieldsOfWord w', word_and_ringRowMask, word_and_ringRowMask, Fields.word_inj] at h
  have hfields : fieldsOfWord w' = { fieldsOfWord w with store := (fieldsOfWord w').store } :=
    congrArg (fun f : Fields => { f with store := (fieldsOfWord w').store }) h.symm
  rw [decode_word_eq w', hfields, decodeFields_withStore, decode_word_eq w]

end Sys2Proof

namespace Sys2Proof.Machine

/-- Only STORE reads the store field (R53). -/
theorem exec_withStore {i : Instr} (h : isStore i = false) (st : BitVec 10) (s : State) :
    exec (i.withStore st) s = exec i s := by
  cases i with
  | store imm => cases h
  | _ => rfl

/-- A word whose opcode is not 1 decodes to no STORE (R56). -/
theorem isStore_of_opcode_ne {w : Word} {i : Instr} (hd : decode (.word w) = .ok i) (h : w.extractLsb' 26 6 ≠ 1) :
    isStore i = false := by
  obtain ⟨-, rfl⟩ := decode_word_ok_iff.mp hd
  cases i with
  | store imm => exact absurd (congrArg Fields.opcode (fieldsOfWord_word _)) h
  | _ => rfl

/-! Transactions and executions. -/

/-- A transaction on a word is the same whichever instruction port the block has (R43). -/
theorem transaction_candidateOfWord (params : Config.Params) (w : Word) (s : State) :
    transaction (candidateOfWord params w) s = transaction (.word w) s := by
  simp only [transaction, decode_candidateOfWord]

/-- Raising an error has exactly the effect of `raise` (60_exceptions.md R80). -/
theorem raised_raiseError (k : ErrorKind) (s : State) : s.Raised k (raiseError k s) :=
  ⟨sameComputational_raiseError k s, rfl, rfl, rfl, rfl⟩

/-- The forms of a well-formed instruction: an ALU operation on two general-purpose registers, a STORE, a RECALL (R55). -/
theorem instr_forms {i : Instr} (h : i.wf = true) :
    (∃ op a b ign, i = AluOp.instr op a b ign) ∨ (∃ imm, i = .store imm) ∨ ∃ ign, i = .recallHistory ign := by
  have gp : ∀ {r r' : BitVec 5}, (isGpField r && isGpField r') = true →
      ∃ a b : GpIndex, r = a.field ∧ r' = b.field := fun hgp =>
    have ⟨hr, hr'⟩ := Bool.and_eq_true_iff.mp hgp
    have ⟨a, ha⟩ := exists_gp_of_isGpField _ hr
    have ⟨b, hb⟩ := exists_gp_of_isGpField _ hr'
    ⟨a, b, ha, hb⟩
  cases i with
  | add r r' ign => obtain ⟨a, b, rfl, rfl⟩ := gp h; exact .inl ⟨.add, a, b, ign, rfl⟩
  | sub r r' ign => obtain ⟨a, b, rfl, rfl⟩ := gp h; exact .inl ⟨.sub, a, b, ign, rfl⟩
  | mul r r' ign => obtain ⟨a, b, rfl, rfl⟩ := gp h; exact .inl ⟨.mul, a, b, ign, rfl⟩
  | div r r' ign => obtain ⟨a, b, rfl, rfl⟩ := gp h; exact .inl ⟨.div, a, b, ign, rfl⟩
  | store imm => exact .inr (.inl ⟨imm, rfl⟩)
  | recallHistory ign => exact .inr (.inr ⟨ign, rfl⟩)

/-- An execution reports no other error than `DivisionByZero` (60_exceptions.md R78). -/
theorem exec_code_ne_error {i : Instr} {s t : State} (hw : i.wf = true) (h : exec i s = .next t) {k : ErrorKind}
    (hk : k ≠ .divisionByZero) : t.status.code ≠ .error k := by
  obtain ⟨a, b, ign, -, -, rfl⟩ | ⟨op, a, b, ign, -, -, rfl⟩ | ⟨imm, -, rfl⟩ | ⟨ign, -, rfl⟩ := exec_next hw h
  · exact fun e => hk (StatusCode.error.inj e).symm
  · exact nofun
  · exact nofun
  · exact nofun

/-- The status reports neither error of the length and character checks (R45, R46). -/
def State.NoFormError (s : State) : Prop :=
  s.status.code ≠ .error .invalidLength ∧ s.status.code ≠ .error .invalidCharacters

/-- On a block with the word port a step whose status has changed reports neither `InvalidLength` nor
`InvalidCharacters` (R43). -/
theorem step_noFormError {s t : State} (hmode : s.params.inputMode = .word) (h : step s = .next t)
    (hne : t.status ≠ s.status) : t.NoFormError := by
  obtain ⟨-, rfl⟩ | ⟨p, rest, -, ⟨-, rfl⟩ | ⟨-, -, rfl⟩ | ⟨-, -, e, he, rfl⟩ | ⟨-, -, i, hi, hexec⟩⟩ := step_next h
  case inl => exact absurd rfl hne
  case inr.inl => exact ⟨nofun, nofun⟩
  case inr.inr.inl => exact absurd rfl hne
  case inr.inr.inr.inl =>
    rw [portCandidate_word hmode] at he
    obtain ⟨hlen, hchr⟩ := decode_word_ne_form p.instrWord
    cases e with
    | invalidLength => exact absurd he hlen
    | invalidCharacters => exact absurd he hchr
    | _ => exact ⟨nofun, nofun⟩
  case inr.inr.inr.inr =>
    have hw := decode_ok_wf hi
    exact ⟨exec_code_ne_error hw hexec nofun, exec_code_ne_error hw hexec nofun⟩

/-- A table word of at most 32 bits is its number's word (R43). -/
theorem tableWord_eq {n w : Nat} (h : w < 2 ^ n) : tableWord n w = BitVec.ofNat 32 w := by
  rw [tableWord, Nat.mod_eq_of_lt h]

/-- What `decodeTableWord` reads is what the table word decodes to. -/
theorem decode_of_decodeTableWord {n w : Nat} {i : Instr} (h : decodeTableWord n w = some i) :
    decode (.word (tableWord n w)) = .ok i := by
  rw [decodeTableWord, tableCandidate, decode_candidateOfWord] at h
  split at h
  next j hj => cases h; exact hj
  next => cases h

end Sys2Proof.Machine
end

section
/-! PROOFS. The statements about the encoding (30_encoding.md). -/

namespace Sys2Proof.Machine

/-- Settles O2: the recursion of the reader, summed up, and its bound. -/
theorem fieldReaderIsMsbFirstBinary : Obligations.FieldReaderIsMsbFirstBinary := fun c start len =>
  ⟨field_eq_sum c start len, field_lt c start len⟩

/-- Settles O3: packing bit by bit, the slices, the port of the block that has this `LEN_W`, and the errors that steps 4
to 6 never answer. -/
theorem wordFormIsTheStringForm : Obligations.WordFormIsTheStringForm :=
  ⟨fun w p => charsOfWord_get w p p.isLt, fun _ h => ⟨_, charsOfWord_wordOfChars h⟩, extractFields_charsOfWord,
    fun lenW w h => (decode_candidateOfWord ⟨.string, lenW, h⟩ w).symm, decode_word_ne_form⟩

/-- Settles O5: the fields of the decoded instruction are the word's slices, and they cover the word. -/
theorem acceptedWordIsItsEncoding : Obligations.AcceptedWordIsItsEncoding := fun _ _ => decode_word_ok_iff.mp

/-- Settles O6: a row accepts the words of its own instructions, and a word decodes to one instruction. -/
theorem acceptedWordsAreTheOpcodeMap : Obligations.AcceptedWordsAreTheOpcodeMap := by
  refine ⟨fun w => ⟨?_, ?_⟩, fun w i h => ⟨i.row_mem, (row_accepts_iff i.row_mem w).mpr ⟨i, h, rfl⟩⟩, ?_⟩
  · rintro ⟨i, h⟩
    exact ⟨i.row, i.row_mem, (row_accepts_iff i.row_mem w).mpr ⟨i, h, rfl⟩⟩
  · rintro ⟨r, hr, h⟩
    obtain ⟨i, hd, -⟩ := (row_accepts_iff hr w).mp h
    exact ⟨i, hd⟩
  · intro w r r' hr hr' h h'
    obtain ⟨i, hd, rfl⟩ := (row_accepts_iff hr w).mp h
    obtain ⟨i', hd', rfl⟩ := (row_accepts_iff hr' w).mp h'
    rw [Except.ok.inj (hd.symm.trans hd')]

/-- Settles O7: one equation of steps 4 to 6 per clause, on the word's slices. -/
theorem illegalWordsReportTheRuledKind : Obligations.IllegalWordsReportTheRuledKind := by
  intro params w c opcode s1 s2 fc
  have hc : decode c = decodeFields (fieldsOfWord w) := (decode_candidateOfWord params w).trans (decode_word_eq w)
  have hop : ∀ n : BitVec 6, opcode = n.toNat ↔ (fieldsOfWord w).opcode = n := fun n => BitVec.toNat_inj
  have hring : opcode = 1 ∨ opcode = 33 ↔ (fieldsOfWord w).opcode = 1 ∨ (fieldsOfWord w).opcode = 33 :=
    or_congr (hop 1) (hop 33)
  have hfc : fc = 0 ↔ (fieldsOfWord w).fc = 0 := BitVec.toNat_inj (y := 0)
  have hs1 : s1 = 0 ↔ (fieldsOfWord w).s1 = 0 := BitVec.toNat_inj (y := 0)
  have hs2 : s2 = 0 ↔ (fieldsOfWord w).s2 = 0 := BitVec.toNat_inj (y := 0)
  have hgp : (isGpField (fieldsOfWord w).s1 && isGpField (fieldsOfWord w).s2) = true ↔
      (1 ≤ s1 ∧ s1 ≤ 21) ∧ 1 ≤ s2 ∧ s2 ≤ 21 := by
    simp only [isGpField, Bool.and_eq_true, decide_eq_true_eq]
    rfl
  have halu : isAluFunction (fieldsOfWord w).fc = true ↔ fc = 32 ∨ fc = 34 ∨ fc = 24 ∨ fc = 26 := isAluFunction_iff _
  rw [hc]
  refine ⟨fun h0 h32 h34 h24 h26 => ?_, fun h0 hf hs => ?_, fun h0 hf h1 h21 h1' h21' => ?_, fun h hf => ?_,
    fun h hf hs => ?_, fun h0 h1 h33 => ?_⟩
  · refine decodeFields_invalidFunctionCode ((hop 0).mp h0) (Bool.eq_false_iff.mpr fun hf => ?_)
    have := halu.mp hf
    omega
  · refine decodeFields_aluRegister ((hop 0).mp h0) (halu.mpr hf) (Bool.eq_false_iff.mpr fun h => ?_)
    have := hgp.mp h
    omega
  · exact ⟨_, decodeFields_alu ((hop 0).mp h0) (halu.mpr hf) (hgp.mpr ⟨⟨h1, h21⟩, h1', h21'⟩), isAlu_aluInstr ..⟩
  · exact decodeFields_invalidCombo (hring.mp h) (mt hfc.mpr hf)
  · exact decodeFields_ringRegister (hring.mp h) (hfc.mp hf) (hs.imp (mt hs1.mpr) (mt hs2.mpr))
  · exact decodeFields_invalidOpcode (mt (hop 0).mpr h0) (mt (hop 1).mpr h1) (mt (hop 33).mpr h33)

/-- Settles O10: the decoder carries the store field over, and no meaning but STORE's reads it. -/
theorem storeFieldIsNeverValidatedAndIgnored : Obligations.StoreFieldIsNeverValidatedAndIgnored := by
  intro params w w' h
  have hw' := decode_word_withStore h
  simp only [decode_candidateOfWord, transaction_candidateOfWord]
  cases hd : decode (.word w) with
  | error e =>
    have hd' : decode (.word w') = .error e := by rw [hw', hd]; rfl
    exact ⟨by simp [hd'], fun _ s => by rw [transaction_error hd, transaction_error hd']⟩
  | ok i =>
    have hd' : decode (.word w') = .ok (i.withStore (fieldsOfWord w').store) := by rw [hw', hd]; rfl
    refine ⟨by simp [hd'], fun hop s => ?_⟩
    rw [transaction_ok hd, transaction_ok hd', exec_withStore (isStore_of_opcode_ne hd hop)]

/-- Settles O11: the check of well-formedness, and the round trip. -/
theorem assemblerRefusesWhatTheBlockRejects : Obligations.AssemblerRefusesWhatTheBlockRejects := fun i =>
  ⟨fun h => by simp [assemble, h], fun h => ⟨encode i, by simp [assemble, h], decode_encode i h⟩⟩

/-- Settles O21: each form of a well-formed instruction has a next state, a DIV by zero the error's. -/
theorem wellFormedInstructionsComplete : Obligations.WellFormedInstructionsComplete := by
  intro i s hw
  obtain ⟨op, a, b, ign, rfl⟩ | ⟨imm, rfl⟩ | ⟨ign, rfl⟩ := instr_forms hw
  · by_cases hz : op = .div ∧ s.reg b.val = 0
    · exact ⟨_, exec_instr_divByZero hz a ign, rfl⟩
    · exact ⟨_, exec_instr_append hz a ign, rfl⟩
  · exact ⟨_, rfl, storeNext_inputs imm s⟩
  · exact ⟨_, rfl, recallNext_inputs s⟩

/-- Settles O53: no step of such a block writes one of the two codes, and at reset there is none. -/
theorem wordBlockNeverReportsLengthOrCharacters : Obligations.WordBlockNeverReportsLengthOrCharacters := by
  refine ⟨fun s t hmode h hcode => ?_, fun s hmode hs => ?_⟩
  · by_contra hne
    obtain ⟨hlen, hchr⟩ := step_noFormError hmode h hne
    exact hcode.elim hlen hchr
  · refine hs.of_invariant (P := fun s => s.params.inputMode = .word → s.NoFormError)
      (fun _ _ _ => ⟨nofun, nofun⟩) (fun s t ih h hmode => ?_) hmode
    rw [step_params h] at hmode
    by_cases hstatus : t.status = s.status
    · rw [State.NoFormError, hstatus]; exact ih hmode
    · exact step_noFormError hmode h hstatus

/-- Settles O1: the words evaluated. -/
theorem specVectorsDecodeAsWritten : Obligations.SpecVectorsDecodeAsWritten := by
  unfold Obligations.SpecVectorsDecodeAsWritten
  decide

/-- Settles O8: the two checks in their order, the second at any position. -/
theorem lengthThenCharactersAreChecked : Obligations.LengthThenCharactersAreChecked := by
  intro lenW len chr
  refine ⟨fun h => decodeChars_invalidLength _ h, fun h ⟨p, h0, h1⟩ => ?_⟩
  rw [decode, h]
  exact decodeChars_invalidCharacters (by simp) ((isBitChar_eq_false_iff chr[p]).mpr ⟨h0, h1⟩)

/-- Settles O15: the edge presents a candidate, and the decoder's answer decides the transaction. -/
theorem stepRunsTheDecodedInstruction : Obligations.StepRunsTheDecodedInstruction := by
  intro s p rest hin hr hv
  have hstep : step s = transaction (portCandidate s.params p) { s with inputs := rest } :=
    (step_cons hin).trans (clockEdge_presents _ hr hv)
  exact ⟨fun i hd => hstep.trans (transaction_ok hd _),
    fun e hd => ⟨_, hstep.trans (transaction_error hd _), raised_raiseError _ _⟩⟩

/-- Settles O16: the word is presented at the next edge, on the port the block has. -/
theorem storedFetchWordRunsNext : Obligations.StoredFetchWordRunsNext := by
  intro s n w _ hw
  have hstep : step (s.withFetchWord n w) = transaction (.word (tableWord n w)) s := step_presentWord rfl
  exact ⟨tableWord_eq hw ▸ hstep, fun i hi => hstep.trans (transaction_ok (decode_of_decodeTableWord hi) s)⟩

end Sys2Proof.Machine
end

section
/-! SUPPORT. The ALU's values (40_alu.md R63): each operation as its bit-vector operation, the signed reading of a
wrapped result, the sign of a quotient rounded toward zero, and the exact readings for operands in R27's range. -/

namespace Sys2Proof.Machine

/-! The operations as bit-vector operations. -/

/-- The ALU's difference is the difference modulo `2^32` (R66). -/
theorem aluResult_sub (va vb : Word) : aluResult .sub va vb = va - vb := by
  apply BitVec.eq_of_toInt_eq
  rw [aluResult, wrap32, BitVec.toInt_ofInt, BitVec.toInt_sub]
  rfl

/-- The ALU's product is the low 32 bits of the product (R67). -/
theorem aluResult_mul (va vb : Word) : aluResult .mul va vb = va * vb := by
  simp [aluResult, wrap32, sint, BitVec.ofInt_mul]

/-- The ALU's quotient is the signed division of bit vectors, which rounds toward zero too (R68). -/
theorem aluResult_div (va vb : Word) : aluResult .div va vb = va.sdiv vb := by
  apply BitVec.eq_of_toInt_eq
  rw [aluResult, wrap32, BitVec.toInt_ofInt, BitVec.toInt_sdiv]
  rfl

/-! Signed readings. -/

/-- Wrapping keeps the residue modulo `2^32` (00_scope.md R9). -/
theorem dvd_sint_wrap32_sub (n : Int) : (2 : Int) ^ 32 ∣ sint (wrap32 n) - n := by
  rw [sint, wrap32, BitVec.toInt_ofInt]
  exact Int.dvd_bmod_sub_self

/-- The quotient is exact in every case but the overflowing one, `-2^31 / -1` (R63). -/
theorem sint_aluResult_div {va vb : Word} (h : ¬(va = 0x80000000 ∧ vb = 0xFFFFFFFF)) :
    sint (aluResult .div va vb) = (sint va).tdiv (sint vb) := by
  rw [aluResult_div]
  exact BitVec.toInt_sdiv_of_ne_or_ne va vb (not_and_or.mp h)

/-- A dividend that is not negative is not the overflowing one. -/
theorem sint_aluResult_div_of_nonneg {va : Word} (ha : 0 ≤ sint va) (vb : Word) :
    sint (aluResult .div va vb) = (sint va).tdiv (sint vb) :=
  sint_aluResult_div fun hov => absurd (hov.1 ▸ ha) (by decide)

/-- A quotient rounded toward zero is negative exactly when the signs differ and it is not rounded to 0 (R63). -/
theorem tdiv_neg_iff (a b : Int) :
    a.tdiv b < 0 ↔ ((a < 0 ∧ 0 < b) ∨ (0 < a ∧ b < 0)) ∧ b.natAbs ≤ a.natAbs := by
  rw [← Int.sign_eq_neg_one_iff_neg, Int.sign_tdiv]
  split
  next hlt => simp [hlt]
  next hle => rw [← Int.sign_mul, Int.sign_eq_neg_one_iff_neg, mul_neg_iff, or_comm, and_iff_left (not_lt.mp hle)]

/-! Operands in R27's range. -/

section inRange
variable {va vb : Word} (ha : 0 ≤ sint va ∧ sint va ≤ 1023) (hb : 0 ≤ sint vb ∧ sint vb ≤ 1023)
include ha hb

theorem sint_aluResult_add_of_inRange : sint (aluResult .add va vb) = sint va + sint vb :=
  sint_wrap32 (by omega) (by omega)

theorem sint_aluResult_sub_of_inRange : sint (aluResult .sub va vb) = sint va - sint vb :=
  sint_wrap32 (by omega) (by omega)

/-- The greatest product is `1023 * 1023` (R69). -/
theorem mul_bounds_of_inRange : 0 ≤ sint va * sint vb ∧ sint va * sint vb ≤ 1046529 :=
  ⟨Int.mul_nonneg ha.1 hb.1, Int.mul_le_mul ha.2 hb.2 hb.1 (by decide)⟩

theorem sint_aluResult_mul_of_inRange : sint (aluResult .mul va vb) = sint va * sint vb := by
  have := mul_bounds_of_inRange ha hb
  exact sint_wrap32 (by omega) (by omega)

/-- The quotient lies between 0 and the dividend (R69). -/
theorem tdiv_bounds_of_inRange : 0 ≤ (sint va).tdiv (sint vb) ∧ (sint va).tdiv (sint vb) ≤ 1023 :=
  ⟨Int.tdiv_nonneg ha.1 hb.1, (Int.tdiv_le_self _ ha.1).trans ha.2⟩

end inRange

/-! An ALU instruction in the statements' terms. -/

/-- An ALU instruction that raises nothing appends its result (R64). -/
theorem exec_instr_appended {op : AluOp} {a b : GpIndex} {s : State} {r : Word} (ign : BitVec 10)
    (h : ¬(op = .div ∧ s.reg b.val = 0)) (hr : aluResult op (s.reg a.val) (s.reg b.val) = r) :
    ∃ t, exec (op.instr a b ign) s = .next t ∧ s.Appended r t :=
  ⟨_, exec_instr_append h a ign, hr ▸ appended_appendHistory _ s⟩

/-- An append reports the result and writes no number register (R64, 10_state.md R13). -/
theorem value_and_x_of_appended {i : Instr} {s : State} {r r' : Word}
    (h : ∃ t, exec i s = .next t ∧ s.Appended r t) (hr : r = r') :
    ∃ t, exec i s = .next t ∧ t.status.value = r' ∧ t.x = s.x := by
  obtain ⟨t, ht, -, -, -, hvalue, -, -, hx, -⟩ := h
  exact ⟨t, ht, hvalue.trans hr, hx⟩

/-- From the sentinel, RECALL after an append moves to the slot just written (41_store_recall.md R72). -/
theorem recallCursor_appendHistory {s : State} (h : s.ti.val = 0) (r : Word) :
    recallCursor (appendHistory r s).hi (appendHistory r s).ti = s.hi := by
  rw [appendHistory_hi, appendHistory_ti, recallCursor_sentinel _ _ h, newestSlot_nextSlot]

end Sys2Proof.Machine
end

section
/-! PROOFS. The statements about the ALU instructions (40_alu.md). -/

namespace Sys2Proof.Machine

/-- Settles O25: wrapping keeps the residue modulo `2^32`; the quotient outside the overflowing case is the exact one,
with its magnitude and sign; and an ALU instruction either raises `DivisionByZero` or appends. -/
theorem arithmeticLaws : Obligations.ArithmeticLaws := by
  refine ⟨fun va vb => ⟨dvd_sint_wrap32_sub _, dvd_sint_wrap32_sub _, dvd_sint_wrap32_sub _, ?_⟩,
    fun va vb _ hov => ?_, by decide, fun op a b ign s => ?_⟩
  · rw [aluResult_mul, BitVec.toNat_mul]
  · rw [sint_aluResult_div hov]
    exact ⟨Int.natAbs_tdiv _ _, tdiv_neg_iff _ _⟩
  · by_cases hz : op = .div ∧ s.reg b.val = 0
    · exact ⟨_, exec_instr_divByZero hz a ign, (if_pos hz).symm⟩
    · exact ⟨_, exec_instr_append hz a ign, (if_neg hz).symm⟩

/-- Settles O32: registers of a reachable state lie in `[0, 1023]`, and on such operands no operation wraps. -/
theorem noOverflowFromReset : Obligations.NoOverflowFromReset := by
  intro s a b hs x y r
  obtain ⟨hregs, -⟩ := reachableValuesAreBounded s hs
  have hx := hregs a.val
  have hy := hregs b.val
  have hadd : r .add = x + y := sint_aluResult_add_of_inRange hx hy
  have hsub : r .sub = x - y := sint_aluResult_sub_of_inRange hx hy
  have hmul : r .mul = x * y := sint_aluResult_mul_of_inRange hx hy
  have hdiv : r .div = x.tdiv y := sint_aluResult_div_of_nonneg hx.1 _
  refine ⟨⟨hadd, ?_⟩, ⟨hsub, ?_⟩, ⟨hmul, hmul ▸ mul_bounds_of_inRange hx hy⟩,
    fun _ => ⟨hdiv, hdiv ▸ tdiv_bounds_of_inRange hx hy⟩⟩
  · omega
  · omega

/-- Settles O46: the append leaves the cursor at the sentinel, so RECALL moves to the slot just written. -/
theorem recallReturnsTheLatestResult : Obligations.RecallReturnsTheLatestResult := by
  intro s op a b ign ign' hti hz
  let r := aluResult op (s.reg a.val) (s.reg b.val)
  have hcursor := recallCursor_appendHistory hti r
  have hrun : s.runInstrs [op.instr a b ign, .recallHistory ign'] =
      .next ((recallNext (appendHistory r s)).withInstrs []) :=
    (runInstrs_cons (op.wf_instr a b ign) (exec_instr_append hz a ign) _).trans (runInstrs_cons rfl rfl [])
  refine ⟨_, hrun, rfl, ?_, ?_, hcursor⟩
  · rw [withInstrs_status, recallNext_status, hcursor, hist_appendHistory, if_pos rfl]
  · rw [withInstrs_status, recallNext_status, hcursor, slotField_toNat]

/-- Settles O26: the shared step raises for a zero divisor and appends otherwise. -/
theorem aluStepAppendsOrRaises : Obligations.AluStepAppendsOrRaises := by
  intro op a b ign s
  by_cases hz : op = .div ∧ s.reg b.val = 0
  · exact ⟨_, exec_instr_divByZero hz a ign, fun _ _ => raised_raiseError _ s, fun hne => absurd hz hne⟩
  · exact ⟨_, exec_instr_append hz a ign, fun hop h0 => absurd ⟨hop, h0⟩ hz, fun _ => appended_appendHistory _ s⟩

/-- Settles O27: ADD is the shared step with the sum. -/
theorem addAppendsTheSum : Obligations.AddAppendsTheSum := fun _ _ ign _ =>
  exec_instr_appended (op := .add) ign (fun hz => nomatch hz.1) (aluResult_add _ _)

/-- Settles O28: SUB is the shared step with the difference. -/
theorem subAppendsTheDifference : Obligations.SubAppendsTheDifference := fun _ _ ign _ =>
  exec_instr_appended (op := .sub) ign (fun hz => nomatch hz.1) (aluResult_sub _ _)

/-- Settles O29: MUL is the shared step with the low product. -/
theorem mulAppendsTheLowProduct : Obligations.MulAppendsTheLowProduct := fun _ _ ign _ =>
  exec_instr_appended (op := .mul) ign (fun hz => nomatch hz.1) (aluResult_mul _ _)

/-- Settles O30: DIV by a nonzero register is the shared step with the signed quotient. -/
theorem divAppendsTheSignedQuotient : Obligations.DivAppendsTheSignedQuotient := fun _ _ ign _ hb =>
  exec_instr_appended (op := .div) ign (fun hz => hb hz.2) (aluResult_div _ _)

/-- Settles O31: the four operations on one value, of which none writes a number register. -/
theorem sameSourceTwice : Obligations.SameSourceTwice := fun a ign s =>
  ⟨value_and_x_of_appended (addAppendsTheSum a a ign s) BitVec.two_mul.symm,
    value_and_x_of_appended (subAppendsTheDifference a a ign s) (BitVec.sub_self _),
    value_and_x_of_appended (mulAppendsTheLowProduct a a ign s) rfl,
    fun ha => value_and_x_of_appended (divAppendsTheSignedQuotient a a ign s ha)
      (BitVec.sdiv_self.trans (if_neg (by simpa using ha)))⟩

end Sys2Proof.Machine
end

section
/-! SUPPORT. The rules about STORE and RECALL (41_store_recall.md): runs of RECALLs, the recall cursor's walk round the
ring, and the history before any ALU instruction has succeeded. -/

namespace Sys2Proof.Machine

/-! Runs of RECALLs. -/

/-- RECALLs presented one per edge, whatever their ignored fields, iterate the one effect of RECALL (R72,
70_reset_and_hazards.md R99). -/
theorem runInstrs_recalls (igns : List (BitVec 10)) (s : State) :
    s.runInstrs (igns.map .recallHistory) = .next ((recallNext^[igns.length] s).withInstrs []) := by
  induction igns generalizing s with
  | nil => rfl
  | cons ign igns ih => exact (runInstrs_cons rfl rfl _).trans (ih (recallNext s))

/-- Any number of RECALLs leaves registers, history and the other two cursors (R72). -/
theorem recallNext_iterate_frame (n : Nat) (s : State) :
    (recallNext^[n] s).x = s.x ∧ (recallNext^[n] s).h = s.h ∧ (recallNext^[n] s).ni = s.ni ∧
      (recallNext^[n] s).hi = s.hi := by
  induction n generalizing s with
  | zero => exact ⟨rfl, rfl, rfl, rfl⟩
  | succ n ih => exact ih (recallNext s)

/-- The last of any number of RECALLs reports the slot it arrived at, as the history held it before them (R72). -/
theorem recallNext_iterate_status (n : Nat) (s : State) : (recallNext^[n + 1] s).status =
    ⟨.okRecall, s.hist (recallNext^[n + 1] s).ti, slotField (recallNext^[n + 1] s).ti⟩ := by
  obtain ⟨-, hh, -, -⟩ := recallNext_iterate_frame n s
  rw [Function.iterate_succ_apply', recallNext_status, recallNext_ti, hist_congr hh]

/-! The walk round the ring. -/

/-- The number of slots RECALLs visit before they come round again, from the sentinel: `hi`, or all ten for `hi = 0`
(R73). -/
def walkLength (hi : SlotIndex) : Nat := if hi.val = 0 then 10 else hi.val

theorem walkLength_pos (hi : SlotIndex) : 0 < walkLength hi := by
  unfold walkLength; split <;> omega

/-- The newest slot is the walk's first. -/
theorem newestSlot_val_eq_walkLength (hi : SlotIndex) : (newestSlot hi).val = walkLength hi - 1 := by
  have := hi.isLt
  rw [newestSlot_val, walkLength]
  split <;> omega

/-- One RECALL further on the walk: one slot back, or from slot 0 through the sentinel to its first slot (R73). -/
theorem recallCursor_walk {hi ti : SlotIndex} {n : Nat} (h : ti.val = walkLength hi - 1 - n % walkLength hi) :
    (recallCursor hi ti).val = walkLength hi - 1 - (n + 1) % walkLength hi := by
  have hlt : n % walkLength hi < walkLength hi := Nat.mod_lt n (walkLength_pos hi)
  have hmod : (n + 1) % walkLength hi = (n % walkLength hi + 1) % walkLength hi := (Nat.mod_add_mod _ _ _).symm
  by_cases h0 : ti.val = 0
  · have hlast : n % walkLength hi + 1 = walkLength hi := by omega
    rw [recallCursor_sentinel hi ti h0, newestSlot_val_eq_walkLength, hmod, hlast, Nat.mod_self, Nat.sub_zero]
  · have hnext : (n + 1) % walkLength hi = n % walkLength hi + 1 := by rw [hmod, Nat.mod_eq_of_lt (by omega)]
    rw [recallCursor_back hi ti h0]
    omega

/-- Where the walk from the sentinel stands after `n` RECALLs and one more (R73). -/
theorem recallNext_iterate_ti {s : State} (h : s.ti.val = 0) (n : Nat) :
    (recallNext^[n + 1] s).ti.val = walkLength s.hi - 1 - n % walkLength s.hi := by
  induction n with
  | zero =>
    rw [Function.iterate_one, recallNext_ti, recallCursor_sentinel _ _ h, newestSlot_val_eq_walkLength, Nat.zero_mod,
      Nat.sub_zero]
  | succ n ih =>
    obtain ⟨-, -, -, hhi⟩ := recallNext_iterate_frame (n + 1) s
    rw [Function.iterate_succ_apply', recallNext_ti, hhi]
    exact recallCursor_walk ih

/-- An ALU instruction does not move the recall cursor, whether it appends or raises (10_state.md R19). -/
theorem exec_instr_ti {op : AluOp} {a b : GpIndex} {ign : BitVec 10} {s t : State}
    (h : exec (op.instr a b ign) s = .next t) : t.ti = s.ti := by
  rw [exec_instr_eq_alu] at h
  obtain ⟨va, vb, -, -, ⟨-, -, rfl⟩ | ⟨-, rfl⟩⟩ := alu_next h
  · exact raiseError_ti _ s
  · exact appendHistory_ti _ s

/-- At the sentinel RECALL reports the newest entry (R72). -/
theorem exec_recall_sentinel (ign : BitVec 10) {s : State} (h : s.ti.val = 0) :
    ∃ t, exec (.recallHistory ign) s = .next t ∧ t.status.code = .okRecall ∧
      t.status.index.toNat = (s.hi.val + 9) % 10 ∧ t.status.value = s.hist (newestSlot s.hi) := by
  refine ⟨recallNext s, rfl, rfl, ?_, ?_⟩
  · rw [recallNext_status, slotField_toNat, recallCursor_sentinel _ _ h, newestSlot_val]
  · rw [recallNext_status, recallCursor_sentinel _ _ h]

/-! The empty history. -/

/-- Nothing has been appended since reset: `hi` and every slot hold their reset values (R74). -/
def State.EmptyHistory (s : State) : Prop := s.hi = 0 ∧ ∀ j : SlotIndex, s.hist j = 0

theorem emptyHistory_reset : State.reset.EmptyHistory := ⟨rfl, by decide⟩

theorem State.EmptyHistory.of_frame {s t : State} (hs : s.EmptyHistory) (hh : t.h = s.h) (hhi : t.hi = s.hi) :
    t.EmptyHistory :=
  ⟨hhi.trans hs.1, fun j => (hist_congr hh j).trans (hs.2 j)⟩

/-- Only an append fills the history, and its step shows `OK_ARITH` (10_state.md R16, R23). -/
theorem State.EmptyHistory.step {s t : State} (hs : s.EmptyHistory) (h : step s = .next t)
    (hcode : t.status.code ≠ .okArith) : t.EmptyHistory := by
  obtain ⟨⟨-, hh, -, hhi, -⟩, -⟩ | ⟨p, rest, -, -, rfl⟩ | ⟨p, rest, i, -, -, -, -, heffect⟩ := step_effect h
  · exact hs.of_frame hh hhi
  · exact emptyHistory_reset.of_frame rfl rfl
  · obtain ⟨op, a, b, ign, -, -, rfl⟩ | ⟨imm, -, rfl⟩ | ⟨ign, -, rfl⟩ := heffect
    · exact absurd rfl hcode
    · exact hs.of_frame (storeNext_h imm _) (storeNext_hi imm _)
    · exact hs.of_frame rfl rfl

/-- What every step into a state of `Q` keeps, a run all of whose states are of `Q` keeps. -/
theorem runFor_keeps_along {P Q : State → Prop} (hstep : ∀ s t, P s → step s = .next t → Q t → P t) (n : Nat)
    {s t : State} (hs : P s) (h : s.runFor n = .next t) (hQ : ∀ m u, m ≤ n → s.runFor m = .next u → Q u) : P t := by
  induction n generalizing s with
  | zero => cases h; exact hs
  | succ n ih =>
    obtain ⟨u, hu, hrest⟩ := runFor_succ_next h
    have hQ' : ∀ m v, m ≤ n → u.runFor m = .next v → Q v := fun m v hm hv =>
      hQ (m + 1) v (Nat.succ_le_succ hm) ((runFor_succ hu).trans hv)
    exact ih (hstep s u hs hu (hQ' 0 u (Nat.zero_le n) rfl)) hrest hQ'

end Sys2Proof.Machine
end

section
/-! PROOFS. The statements about STORE and RECALL (41_store_recall.md). -/

namespace Sys2Proof.Machine

/-- Settles O43: RECALLs iterate one effect, whose cursor the induction on their number places; slot 9 is the newest one
for `hi = 0` alone; and an ALU instruction leaves the cursor. -/
theorem successiveRecallsWalkTheRing : Obligations.SuccessiveRecallsWalkTheRing := by
  refine ⟨fun s igns ign hti => ?_, fun ign s t h hti h9 => ?_, fun op a b ign ign' s t u hti ht hu => ?_⟩
  · have hrun : s.runInstrs ((igns ++ [ign]).map .recallHistory) =
        .next ((recallNext^[igns.length + 1] s).withInstrs []) := by
      rw [runInstrs_recalls, List.length_append, List.length_singleton]
    have hcursor := recallNext_iterate_ti hti igns.length
    have hstatus := recallNext_iterate_status igns.length s
    refine ⟨_, hrun, ?_, ?_, hcursor, ?_, recallNext_iterate_frame (igns.length + 1) s⟩
    · rw [withInstrs_status, hstatus]
    · rw [withInstrs_status, hstatus, slotField_toNat]; exact hcursor
    · rw [withInstrs_status, hstatus, withInstrs_ti]
  · cases h
    have := s.hi.isLt
    rw [recallNext_ti, recallCursor_sentinel _ _ hti, newestSlot_val] at h9
    omega
  · cases hu
    have hsame : t.ti = s.ti := exec_instr_ti ht
    rw [recallNext_ti, hsame, recallCursor_back _ _ hti]

/-- Settles O45: the history is empty at reset and stays so along the run, and from the sentinel with `hi = 0` RECALL
jumps to slot 9. -/
theorem recallOfAnEmptyHistoryReadsZero : Obligations.RecallOfAnEmptyHistoryReadsZero := by
  intro params pins n t ign hrun hcodes
  have hreset : (State.resetWith params pins).EmptyHistory := emptyHistory_reset.of_frame rfl rfl
  obtain ⟨hhi, hzero⟩ := runFor_keeps_along (fun _ _ => State.EmptyHistory.step) n hreset hrun hcodes
  refine ⟨recallNext t, rfl, rfl, hzero _, by rw [hhi]; rfl, fun hti => ?_⟩
  rw [recallNext_status, slotField_toNat, recallCursor_sentinel _ _ hti, hhi]
  rfl

/-- Settles O34: the rules of STORE, element by element. -/
theorem storeWritesTheNextRegister : Obligations.StoreWritesTheNextRegister := by
  intro imm s
  refine ⟨storeNext imm s, rfl, ?_, fun i hi => ⟨storeNext_x_ne imm s hi, storeNext_reg_ne imm s i hi⟩, rfl,
    zext32_toNat imm, s.ni.field_toNat, ?_, storeNext_h imm s, storeNext_hi imm s, storeNext_ti imm s,
    storeNext_inputs imm s⟩
  · rw [storeNext_reg_ni, zext32_toNat]
  · rw [storeNext_ni, GpIndex.next_val]

/-- Settles O42: the cursor RECALL moves to is the slot it reads and reports; nothing else is written. -/
theorem recallReportsTheMovedCursor : Obligations.RecallReportsTheMovedCursor := fun _ s =>
  ⟨recallNext s, rfl, recallCursor_val s.hi s.ti, rfl, rfl, slotField_toNat _, rfl, rfl, rfl, rfl, rfl⟩

/-- Settles O44: a RECALL from slot 1, or from the sentinel with `hi = 1`, arrives at slot 0, which is the sentinel. -/
theorem sentinelAlwaysRestartsTheWalk : Obligations.SentinelAlwaysRestartsTheWalk := by
  refine ⟨fun ign s hti => exec_recall_sentinel ign hti, fun ign ign' s hs => ?_⟩
  have hzero : recallCursor s.hi s.ti = 0 := by
    apply Fin.ext
    rw [recallCursor_val]
    obtain h1 | ⟨h0, hhi⟩ := hs
    · rw [h1]; rfl
    · rw [h0, hhi]; rfl
  obtain ⟨u, hu, -, hindex, hvalue⟩ := exec_recall_sentinel ign' (s := recallNext s) (congrArg Fin.val hzero)
  exact ⟨recallNext s, u, rfl, by rw [recallNext_status, hzero]; rfl, hu, hindex, hvalue⟩

end Sys2Proof.Machine
end

section
/-! SUPPORT. The rules about errors and the end of a run (60_exceptions.md R78, R89): what an execution that reports an
error was, and that one transaction, one edge and one step always answer a next state. -/

namespace Sys2Proof.Machine

/-- An execution that reports an error is a DIV whose divisor register is 0, and the error is `DivisionByZero` (R78). -/
theorem exec_code_error {i : Instr} {s t : State} (hw : i.wf = true) (h : exec i s = .next t) {k : ErrorKind}
    (hk : t.status.code = .error k) :
    k = .divisionByZero ∧ ∃ (a b : GpIndex) (ign : BitVec 10), i = .div a.field b.field ign ∧ s.reg b.val = 0 := by
  obtain ⟨a, b, ign, hi, hz, rfl⟩ | ⟨op, a, b, ign, -, -, rfl⟩ | ⟨imm, -, rfl⟩ | ⟨ign, -, rfl⟩ := exec_next hw h
  · exact ⟨(StatusCode.error.inj hk).symm, a, b, ign, hi, hz⟩
  · exact nomatch hk
  · exact nomatch hk
  · exact nomatch hk

/-- Every transaction answers a next state, with the edges to come as they were (R61, R89). -/
theorem transaction_completes (c : Candidate) (s : State) :
    ∃ t, transaction c s = .next t ∧ t.inputs = s.inputs := by
  cases hd : decode c with
  | error e => exact ⟨_, transaction_error hd s, raiseError_inputs _ s⟩
  | ok i => rw [transaction_ok hd]; exact wellFormedInstructionsComplete i s (decode_ok_wf hd)

/-- An edge with `rst = 1` resets, whatever stands on the instruction port (70_reset_and_hazards.md R90, R96). -/
theorem clockEdge_reset {p : Pins} (s : State) (h : p.rst = true) : clockEdge p s = .next (resetEdge s) := by
  simp [clockEdge, h]

/-- Every edge answers a next state, with the edges to come as they were (R89, 70_reset_and_hazards.md R93). -/
theorem clockEdge_completes (p : Pins) (s : State) : ∃ t, clockEdge p s = .next t ∧ t.inputs = s.inputs := by
  cases hr : p.rst with
  | true => exact ⟨_, clockEdge_reset s hr, resetEdge_inputs s⟩
  | false =>
    cases hv : p.candValid with
    | true => rw [clockEdge_presents s hr hv]; exact transaction_completes _ s
    | false => exact ⟨s, clockEdge_idle s ⟨hr, hv⟩, rfl⟩

/-- Every step answers a next state, having consumed the first edge lined up, if there is one (R89, R93). -/
theorem step_completes (s : State) : ∃ t, step s = .next t ∧ t.inputs = s.inputs.drop 1 := by
  cases hin : s.inputs with
  | nil => exact ⟨s, by rw [step, hin], hin⟩
  | cons p rest => rw [step_cons hin]; exact clockEdge_completes p _

end Sys2Proof.Machine
end

section
/-! PROOFS. The statements about errors (60_exceptions.md). -/

namespace Sys2Proof.Machine

/-- Settles O19: the edge is one transaction; the decoder's error is the one it raises, and an execution reports no
error but that of a DIV by zero. -/
theorem noOtherConditionIsAnError : Obligations.NoOtherConditionIsAnError := by
  intro s t p rest k hin hr hv hstep hk
  rw [step_cons hin, clockEdge_presents _ hr hv] at hstep
  cases hd : decode (portCandidate s.params p) with
  | error e =>
    cases (transaction_error hd _).symm.trans hstep
    cases hk
    exact ⟨kindOfDecodeError_ne_unknown e, .inl ⟨e, rfl, rfl⟩⟩
  | ok i =>
    obtain ⟨rfl, a, b, ign, rfl, hz⟩ :=
      exec_code_error (decode_ok_wf hd) ((transaction_ok hd _).symm.trans hstep) hk
    exact ⟨nofun, .inr ⟨rfl, a, b, ign, rfl, hz⟩⟩

/-- Settles O20, by induction on the number of steps: the first consumes one edge, the others the rest. -/
theorem everyRunGoesOn : Obligations.EveryRunGoesOn := by
  intro s n
  induction n generalizing s with
  | zero => exact ⟨s, runFor_zero s, rfl⟩
  | succ n ih =>
    obtain ⟨u, hu, hfirst⟩ := step_completes s
    obtain ⟨t, ht, hrest⟩ := ih u
    refine ⟨t, (runFor_succ hu).trans ht, ?_⟩
    rw [hrest, hfirst, List.drop_drop, Nat.add_comm]

/-- Settles O17: both causes raise their error, which is all that `raiseError` does. -/
theorem errorsChangeOnlyTheStatus : Obligations.ErrorsChangeOnlyTheStatus :=
  ⟨fun s _ _ hd => ⟨_, transaction_error hd s, raised_raiseError _ s⟩,
    fun s a _ ign hz => ⟨_, exec_instr_divByZero (op := .div) ⟨rfl, hz⟩ a ign, raised_raiseError _ s⟩⟩

end Sys2Proof.Machine
end

section
/-! SUPPORT. The rules about reset and runs (70_reset_and_hazards.md): the values a reset sets, runs in two parts, and
the count of accepted STOREs, which says where `ni` stands and which number registers are still 0 (R92). -/

namespace Sys2Proof.Machine

/-! Reset. -/

/-- The state after reset holds R90's values. -/
theorem hasResetValues_reset : State.reset.HasResetValues :=
  ⟨by decide, by decide, rfl, rfl, rfl, rfl, rfl, rfl⟩

/-- The line-up and the parameters are not among R90's elements, so a reset edge sets what reset sets (R90). -/
theorem hasResetValues_resetEdge (s : State) : (resetEdge s).HasResetValues := hasResetValues_reset

/-! Runs. -/

/-- A run goes on from where its first part ended. -/
theorem runFor_add {m : Nat} {s t : State} (h : s.runFor m = .next t) (n : Nat) : s.runFor (m + n) = t.runFor n := by
  induction m generalizing s with
  | zero => cases h; rw [Nat.zero_add]
  | succ m ih =>
    obtain ⟨u, hu, hrest⟩ := runFor_succ_next h
    rw [Nat.succ_add, runFor_succ hu, ih hrest]

/-! Accepted STOREs. -/

/-- What the count of R92 counts: edges without a reset whose candidate decodes to a STORE. -/
theorem acceptsStore_iff {params : Config.Params} {p : Pins} : acceptsStore params p = true ↔
    p.rst = false ∧ p.candValid = true ∧ ∃ imm, decode (portCandidate params p) = .ok (.store imm) := by
  unfold acceptsStore
  split
  next i hd => cases i <;> simp [hd, isStore]
  next e hd => simp [hd]

/-- A step on an edge that presents an accepted STORE has the effect of STORE (41_store_recall.md R71). -/
theorem step_store {s : State} {p : Pins} {rest : List Pins} {imm : BitVec 10} (hin : s.inputs = p :: rest)
    (hr : p.rst = false) (hv : p.candValid = true) (hd : decode (portCandidate s.params p) = .ok (.store imm)) :
    step s = .next (storeNext imm { s with inputs := rest }) :=
  (step_cons hin).trans ((clockEdge_presents _ hr hv).trans (transaction_ok hd _))

/-- A step on any other edge without a reset leaves the number registers and `ni` (10_state.md R13, R17). -/
theorem step_frame_of_not_acceptsStore {s t : State} {p : Pins} {rest : List Pins} (hin : s.inputs = p :: rest)
    (hr : p.rst = false) (hno : ¬acceptsStore s.params p = true) (h : step s = .next t) : t.x = s.x ∧ t.ni = s.ni := by
  obtain ⟨⟨hx, -, hni, -, -⟩, -⟩ | ⟨q, rest', hin', hr', -⟩ | ⟨q, rest', i, hin', -, hv, hd, heffect⟩ := step_effect h
  · exact ⟨hx, hni⟩
  · cases hin.symm.trans hin'
    exact absurd (hr.symm.trans hr') Bool.false_ne_true
  · cases hin.symm.trans hin'
    obtain ⟨op, a, b, ign, -, -, rfl⟩ | ⟨imm, rfl, -⟩ | ⟨ign, -, rfl⟩ := heffect
    · exact ⟨rfl, rfl⟩
    · exact absurd (acceptsStore_iff.mpr ⟨hr, hv, imm, hd⟩) hno
    · exact ⟨rfl, rfl⟩

/-- The registers and `ni` as `k` STOREs since reset leave them: `ni` is past the last one written, counted round the
21 registers, and those that none of them has reached hold their reset value (R92). -/
def State.HasStored (k : Nat) (s : State) : Prop :=
  s.ni.val.val = k % 21 + 1 ∧ ∀ r : RegIndex, k < r.val → s.reg r = 0

theorem hasStored_resetWith (params : Config.Params) (pins : List Pins) :
    (State.resetWith params pins).HasStored 0 := by
  obtain ⟨hregs, -, hni, -⟩ := hasResetValues_reset
  exact ⟨hni, fun r _ => (hregs r).2⟩

theorem State.HasStored.of_frame {k : Nat} {s t : State} (hs : s.HasStored k) (hx : t.x = s.x) (hni : t.ni = s.ni) :
    t.HasStored k :=
  ⟨hni ▸ hs.1, fun r hr => (reg_congr hx r).trans (hs.2 r hr)⟩

/-- One STORE more: it advances `ni` and writes no register above the count (R71). -/
theorem State.HasStored.storeNext {k : Nat} {s : State} (hs : s.HasStored k) (imm : BitVec 10) :
    (storeNext imm s).HasStored (k + 1) := by
  obtain ⟨hni, hzero⟩ := hs
  refine ⟨?_, fun r hr => ?_⟩
  · rw [storeNext_ni, GpIndex.next_val]
    split <;> omega
  · have hne : r ≠ s.ni.val := by rintro rfl; omega
    rw [storeNext_reg_ne imm s r hne, hzero r (by omega)]

/-- One edge without a reset counts as one STORE exactly when the block accepts one there (R92). -/
theorem State.HasStored.step {k : Nat} {s t : State} {p : Pins} {rest : List Pins} (hs : s.HasStored k)
    (hin : s.inputs = p :: rest) (hr : p.rst = false) (h : step s = .next t) :
    t.HasStored (k + storeCount s.params [p]) := by
  rw [storeCount, List.countP_singleton]
  split
  next hstore =>
    obtain ⟨-, hv, imm, hd⟩ := acceptsStore_iff.mp hstore
    cases (step_store hin hr hv hd).symm.trans h
    exact (hs.of_frame (t := { s with inputs := rest }) rfl rfl).storeNext imm
  next hno =>
    obtain ⟨hx, hni⟩ := step_frame_of_not_acceptsStore hin hr hno h
    exact hs.of_frame hx hni

/-- The count of R92 along any edges without a reset: by induction on the edges. -/
theorem State.HasStored.runFor {k : Nat} {s : State} {pins after : List Pins} (hs : s.HasStored k)
    (hin : s.inputs = pins ++ after) (hr : ∀ q ∈ pins, q.rst = false) :
    ∃ t, s.runFor pins.length = .next t ∧ t.HasStored (k + storeCount s.params pins) ∧
      t.params = s.params ∧ t.inputs = after := by
  induction pins generalizing k s with
  | nil => exact ⟨s, rfl, hs, rfl, hin⟩
  | cons p pins ih =>
    obtain ⟨hp, hpins⟩ := List.forall_mem_cons.mp hr
    obtain ⟨u, hu, hrest⟩ := step_completes s
    rw [hin] at hrest
    have hparams := step_params hu
    obtain ⟨t, ht, hstored, hparams', hafter⟩ := ih (hs.step hin hp hu) hrest hpins
    have hcount : storeCount s.params (p :: pins) = storeCount s.params [p] + storeCount s.params pins :=
      List.countP_append (l₁ := [p])
    rw [hparams, Nat.add_assoc, ← hcount] at hstored
    exact ⟨t, (runFor_succ hu).trans ht, hstored, hparams'.trans hparams, hafter⟩

/-- The count of R92 from the reset of any block. -/
theorem runFor_resetWith_hasStored (params : Config.Params) {pins : List Pins} (after : List Pins)
    (hr : ∀ q ∈ pins, q.rst = false) :
    ∃ t, (State.resetWith params (pins ++ after)).runFor pins.length = .next t ∧
      t.HasStored (storeCount params pins) ∧ t.params = params ∧ t.inputs = after := by
  have h := (hasStored_resetWith params (pins ++ after)).runFor (pins := pins) rfl hr
  rwa [Nat.zero_add] at h

/-! Consecutive STOREs. -/

theorem GpIndex.next_ne (n : GpIndex) : n.val ≠ n.next.val := by
  intro h
  have hval := n.next_val
  rw [← h] at hval
  split at hval <;> omega

/-- Two STOREs in a row leave the first one's value standing: they write different registers (R71). -/
theorem reg_ni_storeNext_storeNext (imm imm' : BitVec 10) (s : State) :
    (storeNext imm' (storeNext imm s)).reg s.ni.val = zext32 imm := by
  rw [storeNext_reg_ne imm' _ _ (storeNext_ni imm s ▸ s.ni.next_ne), storeNext_reg_ni]

/-- The sum of two stored values does not wrap (40_alu.md R69). -/
theorem zext32_add_toNat (imm imm' : BitVec 10) : (zext32 imm + zext32 imm').toNat = imm.toNat + imm'.toNat := by
  have := imm.isLt; have := imm'.isLt
  rw [BitVec.toNat_add, zext32_toNat, zext32_toNat]
  omega

end Sys2Proof.Machine
end

section
/-! PROOFS. The statements about reset, idle edges and hazards (70_reset_and_hazards.md). -/

namespace Sys2Proof.Machine

/-- Settles O13, by induction on the idle edges: each is taken from the line-up and changes nothing. -/
theorem idleEdgesChangeNothing : Obligations.IdleEdgesChangeNothing := by
  intro s idles rest hin hidle
  induction idles generalizing s with
  | nil => cases hin; rfl
  | cons q idles ih =>
    obtain ⟨hq, hidles⟩ := List.forall_mem_cons.mp hidle
    have hstep : step s = .next { s with inputs := idles ++ rest } := (step_cons hin).trans (clockEdge_idle _ hq)
    exact (runFor_succ hstep).trans (ih { s with inputs := idles ++ rest } rfl hidles)

/-- Settles O14: the edge is the transaction, the idle edges change nothing after it, and the ports are the status
register's. -/
theorem portsShowTheLastOutcome : Obligations.PortsShowTheLastOutcome := by
  intro s p idles rest hin hr hv hidle
  obtain ⟨t, ht, hrest⟩ := transaction_completes (portCandidate s.params p) { s with inputs := idles ++ rest }
  have hstep : step s = .next t := (step_cons hin).trans ((clockEdge_presents _ hr hv).trans ht)
  have hrun : s.runFor (idles.length + 1) = .next { t with inputs := rest } :=
    (runFor_succ hstep).trans (idleEdgesChangeNothing t idles rest hrest hidle)
  exact ⟨t, _, ht, hrun, rfl, rfl, rfl⟩

/-- Settles O38: the count along the edges before says where `ni` stands, and the STORE writes there. -/
theorem storeCountSelectsTheRegister : Obligations.StoreCountSelectsTheRegister := by
  intro params before after p imm hbefore hr hv hd k
  obtain ⟨u, hu, hstored, hparams, hin⟩ := runFor_resetWith_hasStored params (p :: after) hbefore
  have hstep := step_store hin hr hv (hparams.symm ▸ hd)
  obtain ⟨hni', -⟩ := (hstored.of_frame (t := { u with inputs := after }) rfl rfl).storeNext imm
  obtain ⟨hni, -⟩ := hstored
  refine ⟨_, (runFor_add hu 1).trans (runFor_succ hstep), rfl, zext32_toNat imm, ?_, hni', fun r hreg => ?_,
    storeNext_inputs imm _⟩
  · rw [storeNext_status, GpIndex.field_toNat]
    exact hni
  · obtain rfl : r = u.ni.val := Fin.ext (hreg.trans hni.symm)
    exact (congrArg BitVec.toNat (storeNext_reg_ni imm { u with inputs := after })).trans (zext32_toNat imm)

/-- Settles O39: each STORE's value stands when the ADD reads it, and the sum of two 10-bit values does not wrap. -/
theorem consecutiveEdgesNeedNoWait : Obligations.ConsecutiveEdgesNeedNoWait := by
  intro s imm imm' ign
  let u := storeNext imm' (storeNext imm s)
  have hfirst : u.reg s.ni.val = zext32 imm := reg_ni_storeNext_storeNext imm imm' s
  have hsecond : u.reg s.ni.next.val = zext32 imm' := storeNext_ni imm s ▸ storeNext_reg_ni imm' (storeNext imm s)
  have hhi : u.hi = s.hi := (storeNext_hi imm' _).trans (storeNext_hi imm s)
  obtain ⟨t, ht, hslot, -, hcode, hvalue, -, hhi', -⟩ := addAppendsTheSum s.ni s.ni.next ign u
  rw [hfirst, hsecond] at hslot hvalue
  rw [hhi] at hslot hhi'
  have hrun : s.runInstrs [.store imm, .store imm', .add s.ni.field s.ni.next.field ign] = .next (t.withInstrs []) :=
    calc s.runInstrs [.store imm, .store imm', .add s.ni.field s.ni.next.field ign]
        = (storeNext imm s).runInstrs [.store imm', .add s.ni.field s.ni.next.field ign] := runInstrs_cons rfl rfl _
      _ = u.runInstrs [.add s.ni.field s.ni.next.field ign] := runInstrs_cons rfl rfl _
      _ = .next (t.withInstrs []) := runInstrs_cons (AluOp.wf_instr .add _ _ ign) ht []
  refine ⟨_, hrun, hcode, ?_, ?_, hhi'⟩
  · rw [withInstrs_status, hvalue, zext32_add_toNat]
  · rw [hist_withInstrs, hslot, zext32_add_toNat]

/-- Settles O54: the count along the edges, from reset, bounds the registers written. -/
theorem unstoredRegistersReadZero : Obligations.UnstoredRegistersReadZero := by
  intro params pins after hpins
  obtain ⟨t, ht, ⟨-, hzero⟩, -, -⟩ := runFor_resetWith_hasStored params after hpins
  exact ⟨t, ht, hzero⟩

/-- Settles O12: the edge resets, whatever stands on the instruction port. -/
theorem resetEdgeSetsEveryElement : Obligations.ResetEdgeSetsEveryElement :=
  ⟨hasResetValues_reset, fun _ _ _ hin hr =>
    ⟨_, (step_cons hin).trans (clockEdge_reset _ hr), rfl, hasResetValues_resetEdge _, rfl, rfl, rfl⟩⟩

/-- Settles O49: a block's reset state differs from `State.reset` in its parameters and line-up alone. -/
theorem resetStateIsLegal : Obligations.ResetStateIsLegal := fun _ _ =>
  reset_legal.of_frame rfl rfl reset_legal.status

end Sys2Proof.Machine
end
